-- ==== Sys2Proof/Word.lean ====
section
/-! DEFINITION. The value a memory cell holds, and the width parameter `W` (00_scope.md R6, R8; 10_state.md R15). -/

namespace Sys2Proof

/-- One memory cell: a signed integer (10_state.md R13, R15).
No rule of the ISA reads individual bits of a cell (00_scope.md R8), so a cell is an integer and not a bit vector. -/
abbrev Cell := Int

/-- The width `W` of a cell (00_scope.md R6): a finite number of bits in two's complement, or `inf`. -/
inductive Width where
  /-- `W` finite: `w` bits, two's complement. -/
  | bits (w : Nat)
  /-- `W = inf`: unbounded mathematical integers. -/
  | unbounded
deriving DecidableEq, Repr

end Sys2Proof
end

