-- ==== Sys2Proof/Config.lean ====
section
/-! DEFINITION. The implementation parameters a model of the block takes (00_scope.md R6).
The spec leaves their values open, so they are data that every statement quantifies over (log 1). -/

namespace Sys2Proof

/-- `OVF`: what ADD or MUL does when `W` is finite and the exact result does not fit (00_scope.md R6, D3). -/
inductive Ovf where
  /-- Raise `ArithOverflow` and write nothing: the spec's default. -/
  | fault
  /-- Two's-complement truncation: the spec's alternative configuration. -/
  | wrap
deriving DecidableEq, Repr

/-- The parameters `W`, `OVF` and `MAXLEN` of one instance of the block (00_scope.md R6).
`LEN` is run state (`State.len`), and `PCW` is unobservable (D5, log 6). -/
structure Params where
  width  : Width
  ovf    : Ovf
  maxLen : Nat
deriving DecidableEq, Repr

/-- DESIGN CHOICE (log 2, unsafe for a claim that rests on it): the parameters `State.reset` names.
`W = inf` and `OVF = fault` are the configuration of the spec's test vectors and its default; `MAXLEN` is the model's own number. -/
def Params.atReset : Params := { width := .unbounded, ovf := .fault, maxLen := 2 ^ 32 }

end Sys2Proof
end

