-- ==== Sys2Proof/Machine/Flags.lean ====
section
/-! DEFINITION. What is computed on an arithmetic result. The block has no flags (10_state.md R16); the one condition
a result can meet is that it does not fit a cell (00_scope.md R8, 41_arithmetic.md R76). -/

namespace Sys2Proof.Machine

/-- `fits_W(v)` (00_scope.md R8). -/
def fitsW : Width → Int → Bool
  | .unbounded, _ => true
  | .bits w, v => decide (-(2 ^ (w - 1)) ≤ v ∧ v < 2 ^ (w - 1))

/-- `wrap_W(v)` (00_scope.md R8): the representative of `v` modulo `2^W` in the signed range. -/
def wrapW : Width → Int → Int
  | .unbounded, v => v
  | .bits w, v => v.bmod (2 ^ w)

/-- The value that an exact result `r` stores (41_arithmetic.md R76), or `none` where the step raises `ArithOverflow`. -/
def narrow (p : Params) (r : Int) : Option Cell :=
  if fitsW p.width r then some r
  else
    match p.ovf with
    | .fault => none
    | .wrap => some (wrapW p.width r)

end Sys2Proof.Machine
end

