-- ==== Sys2Proof/Machine/State.lean ====
section
/-! DEFINITION. The state of one interpreter instance as plain data (10_state.md), the fault kinds it records, and the state after reset. -/

namespace Sys2Proof.Machine

/-- The run status (10_state.md R18). `Halted` and `Faulted` are terminal. -/
inductive Status where
  | running
  | halted
  | faulted
deriving DecidableEq, Repr

/-- The fault kinds a step can raise (10_state.md R19, 60_exceptions.md R82). The value `None` of `fault_kind`
is the `none` of `Option FaultKind`. There is no separate `InvalidAddress` (90_conflicts.md C1). -/
inductive FaultKind where
  /-- A read or the write of ADD or MUL at an address that is not valid. -/
  | outOfBounds
  /-- The opcode cell holds a value other than 1, 2 and 99. -/
  | unknownOpcode
  /-- `W` is finite, `OVF = fault`, and the exact result does not fit (the spec's own kind, D3). -/
  | arithOverflow
deriving DecidableEq, Repr

/-- The memory `M` (10_state.md R13): the cells at addresses 0, 1, 2, … in order, so its length is `LEN` and equal memories
are equal lists. It holds whole cells, for the spec gives a cell no bytes (20_memory.md R32; log 4). -/
abbrev Memory := List Cell

/-- The reasons the MACHINE stops with no next state: none. A fault of a run is a next state with `status = Faulted`
(60_exceptions.md R83, log 7), so this closed type has no constructor and no step ever answers a fault. -/
inductive Fault where
deriving DecidableEq, Repr

/-- The reasons there is no outcome. -/
inductive Refusal where
  /-- Raised by an arm of `exec` for an instruction with no meaning yet (there is none). Safe: nothing can be proved of a next state. -/
  | notModelled (mnemonic : String)
  /-- Raised by `Reset(img)` alone: the image is longer than `MAXLEN` or holds a value that does not fit a cell
  (70_reset_and_hazards.md R102, D23). Safe: the spec gives that transaction no next state. -/
  | imageRefused
deriving DecidableEq, Repr

/-- The state of one instance: the spec's tuple `(LEN, M, pc, status, fault_kind)` (10_state.md), with `LEN` the length of
`mem` (log 5), and the instance's parameters, which nothing changes (log 1). -/
structure State where
  /-- `W`, `OVF` and `MAXLEN` (00_scope.md R6): the model's own field. -/
  params    : Params
  /-- `M[0 .. LEN-1]` (10_state.md R13). -/
  mem       : Memory
  /-- The address of the opcode cell of the instruction to execute (10_state.md R17). -/
  pc        : Nat
  /-- `status` (10_state.md R18). -/
  status    : Status
  /-- `fault_kind`, `none` for the spec's `None` (10_state.md R19). -/
  faultKind : Option FaultKind
deriving DecidableEq, Repr

/-- The state that reset leaves with the image `img` in an instance with parameters `p` (10_state.md R20). -/
def State.load (p : Params) (img : List Cell) : State :=
  { params := p, mem := img, pc := 0, status := .running, faultKind := none }

/-- The machine right after reset with nothing loaded: 10_state.md R20 for the empty image, a legal memory (R14).
Its parameters are the model's choice (log 2), and so is the empty image (log 3). -/
def State.reset : State := State.load Params.atReset []

end Sys2Proof.Machine
end

