-- ==== Sys2Proof/Machine/Ops.lean ====
section
/-! DEFINITION. The named operations over the state: the memory primitives, the register updates, taking a fault, and the predicates
over a state that the step and the host use (20_memory.md, 40_step.md, 60_exceptions.md). -/

namespace Sys2Proof.Machine

/-- `LEN`, the number of cells (10_state.md R14, 20_memory.md R31). -/
def State.len (s : State) : Nat := s.mem.length

/-- `M <- m`. -/
def State.setMem (s : State) (m : Memory) : State := { s with mem := m }

/-- `pc <- n`. -/
def State.setPc (s : State) (n : Nat) : State := { s with pc := n }

/-- `status <- st`. -/
def State.setStatus (s : State) (st : Status) : State := { s with status := st }

/-- `fault_kind <- k`. -/
def State.setFaultKind (s : State) (k : Option FaultKind) : State := { s with faultKind := k }

/-- `valid(a)`, `0 <= a < LEN` (20_memory.md R28; a negative address by D6, log 9). -/
def validAddr (s : State) (a : Int) : Bool := decide (0 ≤ a ∧ a < s.len)

/-- The cell at address `a`, where there is one: no cell has a negative address (10_state.md R13). -/
def cellAt (m : Memory) : Int → Option Cell
  | .ofNat n => m[n]?
  | .negSucc _ => none

/-- `MemRead(a, 1)` (20_memory.md R29). -/
def memRead (s : State) (a : Int) : Except FaultKind Cell :=
  match cellAt s.mem a with
  | some v => .ok v
  | none => .error .outOfBounds

/-- `MemWrite(a, 1, v)` (20_memory.md R30): only cell `a` changes, and a failed write changes nothing. -/
def memWrite (s : State) (a : Int) (v : Cell) : Except FaultKind State :=
  if validAddr s a then .ok (s.setMem (s.mem.set a.toNat v)) else .error .outOfBounds

/-- The fault transition (60_exceptions.md R83): memory and `pc` keep the values they had before the step (D9, log 12). -/
def State.takeFault (s : State) (k : FaultKind) : State := (s.setStatus .faulted).setFaultKind (some k)

/-- `raise F` (00_scope.md R10): the step ends at once in the fault transition, which is a next state (log 7).
Nothing returns from a fault (60_exceptions.md R88). -/
def raiseFault (k : FaultKind) (s : State) : Host.Outcome State Fault Refusal := .next (s.takeFault k)

/-- `status <- Halted`, with memory, `pc` and `fault_kind` unchanged: the effect of HALT (42_control.md R79) and of running off
the end (40_step.md R59), one terminal condition (42_control.md R80). -/
def State.halt (s : State) : State := s.setStatus .halted

/-- `status != Running`: a step does nothing (40_step.md R58). -/
def State.isTerminal (s : State) : Bool :=
  match s.status with
  | .running => false
  | .halted => true
  | .faulted => true

/-- `pc >= LEN`: there is no opcode cell (40_step.md R59). -/
def State.offEnd (s : State) : Bool := decide (s.len ≤ s.pc)

/-- `IsFinished()` (40_step.md R62): it reads `pc` and memory only, and never faults. -/
def State.isFinished (s : State) : Bool := s.offEnd || decide (cellAt s.mem s.pc = some 99)

/-- The memory's canonical form: `LEN <= MAXLEN` (00_scope.md R6) and every cell fits `W` (10_state.md R15).
Addresses are positions in the list, so no address can be listed twice or out of order. -/
def Memory.wf (p : Params) (m : Memory) : Bool :=
  decide (m.length ≤ p.maxLen) && m.all (fitsW p.width)

/-- `status` as the host reads it: a number (10_state.md R18, D11; log 14). -/
def Status.code : Status → Nat
  | .running => 0
  | .halted => 1
  | .faulted => 2

/-- `fault_kind` as the host reads it: a number (10_state.md R19, D11; log 14). -/
def faultCode : Option FaultKind → Nat
  | none => 0
  | some .outOfBounds => 1
  | some .unknownOpcode => 2
  | some .arithOverflow => 3

end Sys2Proof.Machine
end

