-- ==== Sys2Proof/Machine/Operands.lean ====
section
/-! DEFINITION. The ISA's one operand form: an operand is the address of a cell (30_encoding.md R44). There is no immediate, no relative and
no scaled form (30_encoding.md R43, 00_scope.md R2). -/

namespace Sys2Proof.Machine

/-- A source operand `v`: the value of cell `M[v]` (30_encoding.md R44). -/
def readSource (s : State) (v : Cell) : Except FaultKind Cell := memRead s v

/-- A destination operand `v`: stores to cell `M[v]` (30_encoding.md R44). -/
def writeDest (s : State) (v : Cell) (r : Cell) : Except FaultKind State := memWrite s v r

end Sys2Proof.Machine
end

