-- ==== Sys2Proof/Machine/Arithmetic.lean ====
section
/-! DEFINITION. The meanings of ADD and MUL (41_arithmetic.md R71 to R78). -/

namespace Sys2Proof.Machine

/-- `pc` after a successful ADD or MUL: advanced by exactly 4 (10_state.md R17). -/
def State.advance (s : State) : State := s.setPc (s.pc + 4)

/-- The shared form of ADD and MUL (41_arithmetic.md R71, R74): read `a`, read `b`, compute the exact result, check that it
fits, write `c`, advance. The faults come in this order (60_exceptions.md R85, D10; log 13), and both sources are read
before the one write (41_arithmetic.md R77). -/
def binary (f : Int → Int → Int) (a b c : Cell) (s : State) : Host.Outcome State Fault Refusal :=
  match readSource s a with
  | .error k => raiseFault k s
  | .ok x =>
    match readSource s b with
    | .error k => raiseFault k s
    | .ok y =>
      match narrow s.params (f x y) with
      | none => raiseFault .arithOverflow s
      | some r =>
        match writeDest s c r with
        | .error k => raiseFault k s
        | .ok t => .next t.advance

/-- ADD (41_arithmetic.md R71, R72): the exact integer sum. -/
def execAdd (a b c : Cell) (s : State) : Host.Outcome State Fault Refusal := binary (fun x y => x + y) a b c s

/-- MUL (41_arithmetic.md R74, R75): the exact integer product. -/
def execMul (a b c : Cell) (s : State) : Host.Outcome State Fault Refusal := binary (fun x y => x * y) a b c s

end Sys2Proof.Machine
end

