-- ==== Sys2Proof/Machine/Control.lean ====
section
/-! DEFINITION. The meaning of HALT (42_control.md R79). -/

namespace Sys2Proof.Machine

/-- HALT: `status <- Halted`; `pc`, memory and `fault_kind` unchanged; no other cell is read (42_control.md R79). -/
def execHalt (s : State) : Host.Outcome State Fault Refusal := .next s.halt

end Sys2Proof.Machine
end

