-- ==== Sys2Proof/Syntax.lean ====
section
/-! DEFINITION. The instruction set as syntax: one constructor per row of spec/opcode_table.json (30_encoding.md R42, R46). -/

namespace Sys2Proof

/-- The three opcodes (30_encoding.md R46). -/
inductive Opcode where
  | add
  | mul
  | halt
deriving DecidableEq, Repr

/-- The three instructions. An operand is the value of a whole operand cell, used directly as an address;
any cell value may stand there (30_encoding.md R44). -/
inductive Instr where
  /-- `ADD a, b, c` (41_arithmetic.md R71). -/
  | add (a b c : Cell)
  /-- `MUL a, b, c` (41_arithmetic.md R74). -/
  | mul (a b c : Cell)
  /-- `HALT` (42_control.md R79). -/
  | halt
deriving DecidableEq, Repr

/-- The opcode of an instruction. -/
def Instr.opcode : Instr → Opcode
  | .add _ _ _ => .add
  | .mul _ _ _ => .mul
  | .halt => .halt

/-- The operand cells of an instruction, in the order `a`, `b`, `c` of format B; none in format H (30_encoding.md R42). -/
def Instr.operands : Instr → List Cell
  | .add a b c => [a, b, c]
  | .mul a b c => [a, b, c]
  | .halt => []

end Sys2Proof
end

