-- ==== Sys2Proof/Decode.lean ====
section
/-! DEFINITION. The decoder, total on any list of cells and rejecting by name, and the encoder (30_encoding.md R42 to R49). -/

namespace Sys2Proof

/-- Why a run of cells spells no instruction. -/
inductive DecodeReject where
  /-- The opcode cell holds a value other than 1, 2 and 99 (30_encoding.md R47). -/
  | unknownOpcode
  /-- The opcode is 1 or 2 and fewer than three operand cells follow (30_encoding.md R49). -/
  | truncated
  /-- There is no opcode cell. The step never decodes there: `pc >= LEN` halts first (40_step.md R59). -/
  | noCell
deriving DecidableEq, Repr

/-- The opcode cell value of an opcode (30_encoding.md R46). -/
def Opcode.value : Opcode → Cell
  | .add => 1
  | .mul => 2
  | .halt => 99

/-- The length in cells, known from the opcode alone (30_encoding.md R46, R48). -/
def Opcode.lengthInCells : Opcode → Nat
  | .add => 4
  | .mul => 4
  | .halt => 1

/-- Classification of an opcode cell: the whole integer value, compared for equality (30_encoding.md R43, R46, R47). -/
def Opcode.ofCell? (v : Cell) : Option Opcode :=
  if v = 1 then some .add
  else if v = 2 then some .mul
  else if v = 99 then some .halt
  else none

/-- Decodes the instruction at the head of a run of cells and returns it with the cells after it.
The opcode is classified before any operand cell is looked at (30_encoding.md R48), and HALT looks at no other cell (R42). -/
def decode : List Cell → Except DecodeReject (Instr × List Cell)
  | [] => .error .noCell
  | v :: rest =>
    match Opcode.ofCell? v with
    | none => .error .unknownOpcode
    | some .halt => .ok (.halt, rest)
    | some .add =>
      match rest with
      | a :: b :: c :: rest' => .ok (.add a b c, rest')
      | _ => .error .truncated
    | some .mul =>
      match rest with
      | a :: b :: c :: rest' => .ok (.mul a b c, rest')
      | _ => .error .truncated

/-- The cells of an instruction (30_encoding.md R42, R46). -/
def encode : Instr → List Cell
  | .add a b c => [1, a, b, c]
  | .mul a b c => [2, a, b, c]
  | .halt => [99]

/-- The number of bits a cell takes where an instruction is given as ONE number (`decodeTableWord`).
DESIGN CHOICE (log 21): 8, the least `W` that 00_scope.md R7 admits, so that the cells read from it fit every legal `W`. -/
def tableCellBits : Nat := 8

/-- The `k`-th cell of an instruction given as the number `w` of `nbits` bits, cell 0 in the lowest bits, each cell read as
two's complement (00_scope.md R8; log 21). -/
def tableCell (nbits w k : Nat) : Cell :=
  Int.bmod (w % 2 ^ nbits / 2 ^ (tableCellBits * k) : Nat) (2 ^ tableCellBits)

/-- The four cells of the longest instruction, read from the number `w`; bits at and above `nbits` are 0. -/
def tableCells (nbits w : Nat) : List Cell :=
  [tableCell nbits w 0, tableCell nbits w 1, tableCell nbits w 2, tableCell nbits w 3]

/-- The instruction the decoder reads from an instruction whose bits are `w`, or `none` where it refuses. -/
def decodeTableWord (nbits w : Nat) : Option Instr :=
  match decode (tableCells nbits w) with
  | .ok (i, _) => some i
  | .error _ => none

end Sys2Proof
end

