-- ==== Sys2Proof/Machine/Fetch.lean ====
section
/-! DEFINITION. Fetching the instruction at `pc`: decoding is a live view over the memory cells (20_memory.md R40, 30_encoding.md R42). -/

namespace Sys2Proof.Machine

/-- The memory cells from address `a` on. -/
def cellsFrom (s : State) (a : Nat) : List Cell := s.mem.drop a

/-- The fault a rejected fetch raises (30_encoding.md R47, R49). -/
def faultOfReject : DecodeReject → FaultKind
  | .unknownOpcode => .unknownOpcode
  | .truncated => .outOfBounds
  | .noCell => .outOfBounds

/-- The instruction at `pc`, or the fault its fetch raises (40_step.md R56, R57).
It agrees with the chain of single-cell reads that R56 writes out; reads have no side effects (20_memory.md R34; log 23). -/
def fetch (s : State) : Except FaultKind Instr :=
  match decode (cellsFrom s s.pc) with
  | .ok (i, _) => .ok i
  | .error e => .error (faultOfReject e)

/-- `cs` stored at `a, a+1, …`; a memory that ends before `a` is filled up to `a` with cells that hold 0 (log 22). -/
def placeCells (m : Memory) (a : Nat) (cs : List Cell) : Memory :=
  (m ++ List.replicate (a - m.length) 0).take a ++ cs ++ m.drop (a + cs.length)

end Sys2Proof.Machine
end

