-- ==== Sys2Proof/Machine/Step.lean ====
section
/-! DEFINITION. One step of the fetch-decode-execute cycle (40_step.md R56), and how a program's instruction is placed where it fetches. -/

namespace Sys2Proof.Machine

/-- `Step()` (40_step.md R56): nothing in a terminal state (R58), a halt off the end (R59), else the instruction at `pc`. -/
def step (s : State) : Host.Outcome State Fault Refusal :=
  if s.isTerminal then .next s
  else if s.offEnd then .next s.halt
  else
    match fetch s with
    | .error k => raiseFault k s
    | .ok i => exec i s

/-- `s` with the instruction whose bits are `w` stored at `pc`, and running, so that the next step fetches and runs it.
It stands for the load that `Reset(img)` makes (log 3, log 22). -/
def State.withFetchWord (s : State) (nbits w : Nat) : State :=
  ((s.setMem (placeCells s.mem s.pc (tableCells nbits w))).setStatus .running).setFaultKind none

end Sys2Proof.Machine
end

