-- ==== Sys2Proof/Machine/Assembler.lean ====
section
/-! DEFINITION. The assembly syntax of 30_encoding.md R51 (D19), as structured lines: it is a notation for images, not a part of the block. -/

namespace Sys2Proof.Machine

/-- An operand of an assembly line: an integer literal, or a label that stands for one (30_encoding.md R51). -/
inductive AsmOperand where
  | lit (v : Cell)
  | label (name : String)
deriving DecidableEq, Repr

/-- What an assembly line emits (30_encoding.md R51). There are no pseudo-instructions. -/
inductive AsmBody where
  | add (a b c : AsmOperand)
  | mul (a b c : AsmOperand)
  | halt
  | cell (v : Cell)
deriving DecidableEq, Repr

/-- One line, with the label that may stand at its start. -/
structure AsmLine where
  label : Option String
  body  : AsmBody
deriving DecidableEq, Repr

/-- Why a list of lines assembles to nothing (DESIGN CHOICE, log 24: the spec does not name these cases). -/
inductive AsmError where
  | undefinedLabel (name : String)
  | duplicateLabel (name : String)
deriving DecidableEq, Repr

/-- The number of cells a line emits (30_encoding.md R51). -/
def AsmBody.size : AsmBody → Nat
  | .add _ _ _ => 4
  | .mul _ _ _ => 4
  | .halt => 1
  | .cell _ => 1

/-- The labels of the lines with the addresses they name, the first line at address `a` (30_encoding.md R51). -/
def labelsFrom (a : Nat) : List AsmLine → List (String × Nat)
  | [] => []
  | l :: ls =>
    match l.label with
    | some n => (n, a) :: labelsFrom (a + l.body.size) ls
    | none => labelsFrom (a + l.body.size) ls

/-- The address a label names. -/
def lookupLabel (name : String) : List (String × Nat) → Option Nat
  | [] => none
  | (n, a) :: rest => if n = name then some a else lookupLabel name rest

/-- The first label that stands on two lines. -/
def firstDuplicate : List (String × Nat) → Option String
  | [] => none
  | (n, _) :: rest => if (lookupLabel n rest).isSome then some n else firstDuplicate rest

/-- The integer an operand stands for. -/
def resolve (labels : List (String × Nat)) : AsmOperand → Except AsmError Cell
  | .lit v => .ok v
  | .label n =>
    match lookupLabel n labels with
    | some a => .ok (Int.ofNat a)
    | none => .error (.undefinedLabel n)

/-- Three operands, in order. -/
def resolve3 (labels : List (String × Nat)) (a b c : AsmOperand) (make : Cell → Cell → Cell → List Cell) :
    Except AsmError (List Cell) :=
  match resolve labels a with
  | .error e => .error e
  | .ok x =>
    match resolve labels b with
    | .error e => .error e
    | .ok y =>
      match resolve labels c with
      | .error e => .error e
      | .ok z => .ok (make x y z)

/-- The cells a line emits (30_encoding.md R51). -/
def emit (labels : List (String × Nat)) : AsmBody → Except AsmError (List Cell)
  | .add a b c => resolve3 labels a b c (fun x y z => encode (.add x y z))
  | .mul a b c => resolve3 labels a b c (fun x y z => encode (.mul x y z))
  | .halt => .ok (encode .halt)
  | .cell v => .ok [v]

/-- The cells of all lines, each at the next free address. -/
def emitAll (labels : List (String × Nat)) : List AsmLine → Except AsmError (List Cell)
  | [] => .ok []
  | l :: ls =>
    match emit labels l.body with
    | .error e => .error e
    | .ok cs =>
      match emitAll labels ls with
      | .error e => .error e
      | .ok rest => .ok (cs ++ rest)

/-- The image that a list of lines stands for, starting at address 0 (30_encoding.md R51). -/
def assemble (ls : List AsmLine) : Except AsmError (List Cell) :=
  match firstDuplicate (labelsFrom 0 ls) with
  | some n => .error (.duplicateLabel n)
  | none => emitAll (labelsFrom 0 ls) ls

/-- An operand as it is written (30_encoding.md R51). -/
def AsmOperand.text : AsmOperand → String
  | .lit v => toString v
  | .label n => n

/-- A line's body as it is written (30_encoding.md R51). -/
def AsmBody.text : AsmBody → String
  | .add a b c => "ADD " ++ a.text ++ ", " ++ b.text ++ ", " ++ c.text
  | .mul a b c => "MUL " ++ a.text ++ ", " ++ b.text ++ ", " ++ c.text
  | .halt => "HALT"
  | .cell v => ".cell " ++ toString v

/-- A line as it is written: `name:` at the line start where it has a label (30_encoding.md R51). -/
def AsmLine.text (l : AsmLine) : String :=
  match l.label with
  | some n => n ++ ": " ++ l.body.text
  | none => l.body.text

end Sys2Proof.Machine
end

