-- ==== Sys2Proof/Machine/Run.lean ====
section
/-! DEFINITION. Running to completion (40_step.md section 3): the spec's loop, and the source's loop that R65 compares it with. -/

namespace Sys2Proof.Machine

/-- `while status == Running: Step()`, at most `n` times round (40_step.md R64, D21). -/
def runFor : Nat → State → Host.Outcome State Fault Refusal
  | 0, s => .next s
  | n + 1, s =>
    if s.isTerminal then .next s
    else
      match step s with
      | .next t => runFor n t
      | .fault r => .fault r
      | .refused r => .refused r

/-- The step bound of 40_step.md R66: `floor(LEN / 4) + 1`. -/
def runBound (s : State) : Nat := s.len / 4 + 1

/-- `Run()` (40_step.md R64). The loop has ended when the bound of R66 is used up, so cutting it there loses nothing (log 18). -/
def run (s : State) : Host.Outcome State Fault Refusal := runFor (runBound s) s

/-- The source's `run_to_completion()`, at most `n` times round: "repeatedly call `step` until `is_finished()` or a fault occurs"
(40_step.md R64, R65). -/
def sourceLoopFor : Nat → State → Host.Outcome State Fault Refusal
  | 0, s => .next s
  | n + 1, s =>
    if s.isFinished || decide (s.status = .faulted) then .next s
    else
      match step s with
      | .next t => sourceLoopFor n t
      | .fault r => .fault r
      | .refused r => .refused r

/-- The source's `run_to_completion()`, cut at the bound of 40_step.md R66. -/
def sourceRun (s : State) : Host.Outcome State Fault Refusal := sourceLoopFor (runBound s) s

end Sys2Proof.Machine
end

