-- ==== Sys2Proof/Machine/Transactions.lean ====
section
/-! DEFINITION. The transactions between the host and the block (10_state.md R22, R23): each is indivisible, and there are no others (D15; log 15). -/

namespace Sys2Proof.Machine

/-- The operations the block offers the host (10_state.md R22). -/
inductive Transaction where
  | reset (img : List Cell)
  | step
  | run
  | isFinished
  | status
  | peek (a : Int)
deriving DecidableEq, Repr

/-- What a transaction gives back to the host (10_state.md R22). -/
inductive Reply where
  /-- `Reset` and `Step` have no output. -/
  | done
  /-- The final `status` and `fault_kind` of `Run()`. -/
  | ended (status : Status) (kind : Option FaultKind)
  /-- The boolean of `IsFinished()`. -/
  | finished (b : Bool)
  /-- `status`, `fault_kind` and `pc` of `Status()` (D12). -/
  | statusIs (status : Status) (kind : Option FaultKind) (pc : Nat)
  /-- The cell value of `Peek(a)`. -/
  | cell (v : Cell)
  /-- The error of `Peek(a)`: the host's, not the run's (40_step.md R67). -/
  | error (kind : FaultKind)
deriving DecidableEq, Repr

/-- `Reset(img)` (70_reset_and_hazards.md R101, R102): replaces the whole run state, in any state, or refuses the image.
The parameters belong to the instance and stay. -/
def resetWith (img : List Cell) (s : State) : Host.Outcome State Fault Refusal :=
  if Memory.wf s.params img then .next (State.load s.params img) else .refused .imageRefused

/-- `Peek(a)` (40_step.md R67): the cell, or the error `OutOfBounds`; it changes nothing at any `status`. -/
def peek (s : State) (a : Int) : Except FaultKind Cell := memRead s a

/-- An outcome with the reply that belongs to its next state. -/
def withReply (o : Host.Outcome State Fault Refusal) (r : State → Reply) : Host.Outcome (State × Reply) Fault Refusal :=
  match o with
  | .next t => .next (t, r t)
  | .fault e => .fault e
  | .refused e => .refused e

/-- One transaction (10_state.md R22). -/
def transact (q : Transaction) (s : State) : Host.Outcome (State × Reply) Fault Refusal :=
  match q with
  | .reset img => withReply (resetWith img s) (fun _ => .done)
  | .step => withReply (step s) (fun _ => .done)
  | .run => withReply (run s) (fun t => .ended t.status t.faultKind)
  | .isFinished => .next (s, .finished s.isFinished)
  | .status => .next (s, .statusIs s.status s.faultKind s.pc)
  | .peek a =>
    match peek s a with
    | .ok v => .next (s, .cell v)
    | .error k => .next (s, .error k)

end Sys2Proof.Machine
end

