-- ==== Sys2Proof/Machine/Driver.lean ====
section
/-! DEFINITION. The host software the spec describes (60_exceptions.md section 6): direct evaluation and search. It is no part of the block
(00_scope.md R5) and only uses the block's transactions. -/

namespace Sys2Proof.Machine

/-- How a trial fails. -/
inductive TrialFailure where
  /-- The run faulted, or the host's own write was out of bounds (60_exceptions.md R95, D24; log 20). -/
  | fault (k : FaultKind)
  /-- `Reset` refused the image: there is no run (70_reset_and_hazards.md R102, D23; log 20). -/
  | refused
deriving DecidableEq, Repr

/-- The image of a trial: a copy of the program with the noun at address 1 and the verb at address 2 (60_exceptions.md R95). -/
def trialImage (program : List Cell) (noun verb : Cell) : List Cell := (program.set 1 noun).set 2 verb

/-- The result of a run that has ended (60_exceptions.md R94, R95): the fault kind, or the value at address 0. -/
def trialResult (t : State) : Except TrialFailure Cell :=
  match t.faultKind with
  | some k => .error (.fault k)
  | none =>
    match peek t 0 with
    | .ok v => .ok v
    | .error k => .error (.fault k)

/-- `evaluate_direct(program, noun, verb)` on a fresh instance with parameters `p` (60_exceptions.md R95). -/
def evaluateDirect (p : Params) (program : List Cell) (noun verb : Cell) : Except TrialFailure Cell :=
  if program.length < 3 then .error (.fault .outOfBounds)
  else
    match resetWith (trialImage program noun verb) (State.load p []) with
    | .next s =>
      match run s with
      | .next t => trialResult t
      | .fault _ => .error .refused
      | .refused _ => .error .refused
    | .fault _ => .error .refused
    | .refused _ => .error .refused

/-- `lo, lo+1, …, hi`, ascending, both ends included (60_exceptions.md R97, R98). -/
def rangeInclusive (lo hi : Nat) : List Cell := (List.range' lo (hi + 1 - lo)).map Int.ofNat

/-- The inner loop of `search`: the first verb whose trial gives the target; failing trials are skipped (60_exceptions.md R97). -/
def searchVerbs (p : Params) (program : List Cell) (target noun : Cell) : List Cell → Option Cell
  | [] => none
  | verb :: verbs =>
    if evaluateDirect p program noun verb = .ok target then some verb
    else searchVerbs p program target noun verbs

/-- `search(program, target, noun_range, verb_range)`: the first match in noun-major, verb-minor order, `none` for `NotFound`
(60_exceptions.md R97, 90_conflicts.md C6). -/
def search (p : Params) (program : List Cell) (target : Cell) : List Cell → List Cell → Option (Cell × Cell)
  | [], _ => none
  | noun :: nouns, verbs =>
    match searchVerbs p program target noun verbs with
    | some verb => some (noun, verb)
    | none => search p program target nouns verbs

/-- The host's literals, all unaudited (93_implementation_defined.md section 3). -/
structure DriverParams where
  noun0  : Cell
  verb0  : Cell
  target : Cell
  rangeLo : Nat
  rangeHi : Nat
  factor : Int
deriving DecidableEq, Repr

/-- The values the source gives (60_exceptions.md R96, R98). -/
def DriverParams.source : DriverParams :=
  { noun0 := 12, verb0 := 2, target := 19690720, rangeLo := 0, rangeHi := 99, factor := 100 }

/-- Direct-run mode (60_exceptions.md R96): a fault is a hard failure. -/
def directRun (d : DriverParams) (p : Params) (program : List Cell) : Except TrialFailure Cell :=
  evaluateDirect p program d.noun0 d.verb0

/-- Search mode (60_exceptions.md R98): `noun * 100 + verb` of the first match, or `none` for `NotFound`. -/
def searchRun (d : DriverParams) (p : Params) (program : List Cell) : Option Int :=
  match search p program d.target (rangeInclusive d.rangeLo d.rangeHi) (rangeInclusive d.rangeLo d.rangeHi) with
  | some (noun, verb) => some (noun * d.factor + verb)
  | none => none

end Sys2Proof.Machine
end

