-- ==== Sys2Proof/Machine/Instances.lean ====
section
/-! DEFINITION. Several instances of the block under one host (10_state.md R24, 60_exceptions.md R91). -/

namespace Sys2Proof.Machine

/-- A transaction on instance `k` of several (10_state.md R24, 60_exceptions.md R91): each instance has a state of its own, and only that one
is read and written. `none` where there is no instance `k`. -/
def transactAt (k : Nat) (q : Transaction) (ss : List State) : Option (Host.Outcome (List State × Reply) Fault Refusal) :=
  match ss[k]? with
  | none => none
  | some s =>
    some
      (match transact q s with
      | .next (t, r) => .next (ss.set k t, r)
      | .fault e => .fault e
      | .refused e => .refused e)

end Sys2Proof.Machine
end

