-- ==== Sys2Proof/WellFormed.lean ====
section
/-! DEFINITION. When parameters and instructions are well formed (00_scope.md R6, R7; 10_state.md R15). -/

namespace Sys2Proof

/-- The parameter conditions of 00_scope.md R6 and R7: a finite `W` is at least 8, and then `MAXLEN <= 2^(W-1)`,
which keeps every `LEN <= 2^(W-1)`. -/
def Params.wf (p : Params) : Bool :=
  match p.width with
  | .unbounded => true
  | .bits w => decide (8 ≤ w) && decide (p.maxLen ≤ 2 ^ (w - 1))

/-- An instruction can stand in a memory of cells of width `w`: every operand value fits a cell (10_state.md R15).
With `W = inf` every instruction is well formed, since any cell value may be an operand (30_encoding.md R44). -/
def Instr.wf (w : Width) (i : Instr) : Bool := i.operands.all (Machine.fitsW w)

end Sys2Proof
end

