-- ==== Sys2Proof/Safety.lean ====
section
/-! DEFINITION. The terms claims use: the invariants of a run, reachable states, and how a run ends. -/

namespace Sys2Proof.Machine

/-- `pc` is a multiple of 4 and `0 <= pc <= LEN` (40_step.md R68). -/
abbrev State.PcInv (s : State) : Prop := s.pc % 4 = 0 ∧ s.pc ≤ s.len

/-- The parameters are legal (00_scope.md R6, R7), `LEN <= MAXLEN`, and every cell fits `W` (10_state.md R15). -/
abbrev State.MemInv (s : State) : Prop := s.params.wf = true ∧ Memory.wf s.params s.mem = true

/-- `fault_kind != None` exactly when `status = Faulted` (10_state.md R19). -/
abbrev State.FaultInv (s : State) : Prop := s.faultKind ≠ none ↔ s.status = .faulted

/-- A halted run is finished, and a faulted run is not (40_step.md R63). -/
abbrev State.EndInv (s : State) : Prop :=
  (s.status = .halted → s.isFinished = true) ∧ (s.status = .faulted → s.isFinished = false)

/-- The invariant of a run. -/
abbrev State.Inv (s : State) : Prop := s.PcInv ∧ s.MemInv ∧ s.FaultInv ∧ s.EndInv

/-- The states that transactions lead to from a `Reset` of an instance with legal parameters (10_state.md R22, R23). -/
inductive Reachable : State → Prop where
  | reset (s t : State) (img : List Cell) (hp : s.params.wf = true) (h : resetWith img s = .next t) : Reachable t
  | transact (q : Transaction) (s t : State) (r : Reply) (hs : Reachable s) (h : transact q s = .next (t, r)) : Reachable t

/-- The run ended normally (60_exceptions.md R94): its result is the memory. This is what a safe run ends in. -/
abbrev State.EndedNormally (s : State) : Prop := s.status = .halted

/-- The run ended in failure (60_exceptions.md R94): its result is `fault_kind`. -/
abbrev State.EndedInFailure (s : State) : Prop := s.status = .faulted

/-- The outcome `o` of a step from `s` is the fault transition with kind `k` (60_exceptions.md R83): `status` and `fault_kind` are
written and everything else keeps the value it had before. -/
def FaultsWith (o : Host.Outcome State Fault Refusal) (s : State) (k : FaultKind) : Prop :=
  ∃ t, o = .next t ∧ t.status = .faulted ∧ t.faultKind = some k ∧ t.mem = s.mem ∧ t.pc = s.pc ∧ t.params = s.params

/-- The outcome `o` of a step from `s` is a successful ADD or MUL that stores `r` at address `c` (41_arithmetic.md R71, R74): cell `c` holds
`r`, every other address reads as before, `pc` has advanced by 4, and everything else keeps its value. -/
def StoresAndAdvances (o : Host.Outcome State Fault Refusal) (s : State) (c : Cell) (r : Cell) : Prop :=
  ∃ t, o = .next t ∧ memRead t c = .ok r ∧ (∀ x, x ≠ c → memRead t x = memRead s x) ∧ t.len = s.len ∧
    t.pc = s.pc + 4 ∧ t.status = s.status ∧ t.faultKind = s.faultKind ∧ t.params = s.params

/-- The outcome `o` of a step from `s` is a normal stop (42_control.md R79, 40_step.md R59): only `status` is written. -/
def HaltsUnchanged (o : Host.Outcome State Fault Refusal) (s : State) : Prop :=
  ∃ t, o = .next t ∧ t.status = .halted ∧ t.mem = s.mem ∧ t.pc = s.pc ∧ t.faultKind = s.faultKind ∧ t.params = s.params

end Sys2Proof.Machine
end

