-- ==== Sys2Proof/Certificates/Slice0/Obligations.lean ====
section
/-! DEFINITION. The statements for the provers. Each docstring names the rule of spec/ it formalises; where a clause rests on a decision
the spec marks as its own (D<n> of 92_eei_decisions.md), it says so. -/

open Sys2Proof Sys2Proof.Machine

/-! ### Encoding -/

/-- Words written out from 30_encoding.md section 3 and the worked programs of 95_test_vectors.md decode to the instructions they stand for. -/
def Obligations.DecodesWrittenOutWords : Prop :=
  decode [1, 9, 10, 3, 2, 3, 11, 0] = .ok (.add 9 10 3, [2, 3, 11, 0]) ∧
  decode [2, 3, 11, 0, 99] = .ok (.mul 3 11 0, [99]) ∧
  decode [99, 1, 2, 3] = .ok (.halt, [1, 2, 3]) ∧
  decode [1, -1, 0, 7] = .ok (.add (-1) 0 7, []) ∧
  decode [1001, 0, 0, 0, 99] = .error .unknownOpcode ∧
  decode [5, 0] = .error .unknownOpcode ∧
  decode [1, 0, 0] = .error .truncated

/-- 30_encoding.md R46: the opcode map has exactly three entries, with these values and lengths, and every instruction is encoded
with its opcode's value and length. -/
def Obligations.OpcodeMapHasThreeEntries : Prop :=
  (∀ (v : Cell) (op : Opcode), Opcode.ofCell? v = some op ↔ v = op.value) ∧
  Opcode.add.value = 1 ∧ Opcode.mul.value = 2 ∧ Opcode.halt.value = 99 ∧
  Opcode.add.lengthInCells = 4 ∧ Opcode.mul.lengthInCells = 4 ∧ Opcode.halt.lengthInCells = 1 ∧
  ∀ i : Instr, (encode i).head? = some i.opcode.value ∧ (encode i).length = i.opcode.lengthInCells

/-- 30_encoding.md sections 1 to 4: decoding and encoding agree in both directions, with every operand at every value, whatever
cells follow; and the instruction fetched at `pc` is the one whose cells stand there. -/
def Obligations.DecodeAndEncodeAgree : Prop :=
  (∀ (i : Instr) (rest cs : List Cell), decode cs = .ok (i, rest) ↔ cs = encode i ++ rest) ∧
  ∀ (s : State) (i : Instr), fetch s = .ok i ↔ ∃ rest, cellsFrom s s.pc = encode i ++ rest

/-- 00_scope.md section 4 (R7 is the spec's own derivation) and 10_state.md section 2: with legal parameters an instruction is well
formed exactly when each of its cells, the opcode cell among them, fits `W`. -/
def Obligations.EncodedCellsFitExactlyWhenWellFormed : Prop :=
  ∀ (p : Params) (i : Instr), p.wf = true → (i.wf p.width = true ↔ ∀ v ∈ encode i, fitsW p.width v = true)

/-- 10_state.md section 2: an instruction fetched from a memory in its form is well formed for the memory's width. -/
def Obligations.FetchedInstructionIsWellFormed : Prop :=
  ∀ (s : State) (i : Instr), s.MemInv → fetch s = .ok i → i.wf s.params.width = true

/-- 30_encoding.md R47 and 40_step.md R60: every opcode value other than 1, 2 and 99 is rejected by the decoder whatever follows it, and
a step that finds it raises `UnknownOpcode` and leaves memory and `pc` as they were. -/
def Obligations.UnknownOpcodeFaultsAndChangesNothing : Prop :=
  (∀ (v : Cell) (rest : List Cell), decode (v :: rest) = .error .unknownOpcode ↔ v ≠ 1 ∧ v ≠ 2 ∧ v ≠ 99) ∧
  ∀ (s : State) (v : Cell), s.status = .running → cellAt s.mem s.pc = some v → v ≠ 1 → v ≠ 2 → v ≠ 99 →
    FaultsWith (step s) s .unknownOpcode

/-- 30_encoding.md R49: an ADD or MUL with fewer than 4 cells left raises `OutOfBounds` (that memory and `pc` stay is
`FaultsArePrecise`); a HALT needs only its opcode cell, so in the last cell it is complete. -/
def Obligations.TruncatedInstructionIsOutOfBounds : Prop :=
  (∀ (s : State) (v : Cell), s.status = .running → cellAt s.mem s.pc = some v → (v = 1 ∨ v = 2) → s.len ≤ s.pc + 3 →
    ∃ t, step s = .next t ∧ t.status = .faulted ∧ t.faultKind = some .outOfBounds) ∧
  ∀ s : State, s.status = .running → cellAt s.mem s.pc = some 99 → s.pc + 1 = s.len → HaltsUnchanged (step s) s

/-! ### The cycle -/

/-- 40_step.md section 1: below the end of memory, the fetch is the chain of single-cell reads the step's pseudocode writes out, the opcode
classified before any operand cell is read. -/
def Obligations.FetchFollowsTheReadOrder : Prop :=
  ∀ s : State, s.pc < s.len →
    fetch s =
      match memRead s s.pc with
      | .error k => .error k
      | .ok op =>
        if op = 99 then .ok .halt
        else if op = 1 ∨ op = 2 then
          match memRead s (s.pc + 1) with
          | .error k => .error k
          | .ok a =>
            match memRead s (s.pc + 2) with
            | .error k => .error k
            | .ok b =>
              match memRead s (s.pc + 3) with
              | .error k => .error k
              | .ok c => if op = 1 then .ok (.add a b c) else .ok (.mul a b c)
        else .error .unknownOpcode

/-- 40_step.md section 1: when the cells at `pc` are those of an instruction, a running step is the execution of that instruction at that
state; nothing is added around it. -/
def Obligations.StepRunsTheDecodedInstruction : Prop :=
  ∀ (s : State) (i : Instr) (rest : List Cell), s.status = .running → cellsFrom s s.pc = encode i ++ rest → step s = exec i s

/-- 40_step.md section 1: a step in a terminal state does nothing (for `Faulted` this is the spec's decision D8, log 11). -/
def Obligations.StepInTerminalStateDoesNothing : Prop :=
  ∀ s : State, s.status = .halted ∨ s.status = .faulted → step s = .next s

/-- 40_step.md section 1: a running step at or past the end of memory halts and changes nothing else (the spec's decision D7, log 10). -/
def Obligations.StepOffTheEndHalts : Prop :=
  ∀ s : State, s.status = .running → s.len ≤ s.pc → HaltsUnchanged (step s) s

/-- 60_exceptions.md sections 1 and 3, 40_step.md section 1: a fault does not stop the machine, so every instruction and every step, from
every state, answers a next state (off the end and in `Faulted` by the spec's decisions D7 and D8, log 10 and 11). -/
def Obligations.EveryStepAnswersANextState : Prop :=
  (∀ (i : Instr) (s : State), ∃ t, exec i s = .next t) ∧ ∀ s : State, ∃ t, step s = .next t

/-- 40_step.md section 1 (R61 is the spec's own derivation): a running step halts and changes nothing else, or faults and changes nothing
else, or goes on with `pc + 4` and at most the cell its destination operand names changed. Off the end it halts by the spec's decision D7 (log 10),
and `pc` stays in a fault by D9 (log 12). -/
def Obligations.RunningStepDoesOneOfThreeThings : Prop :=
  ∀ s t : State, s.status = .running → step s = .next t →
    t.params = s.params ∧ t.len = s.len ∧
    ((t.status = .halted ∧ t.mem = s.mem ∧ t.pc = s.pc ∧ t.faultKind = s.faultKind) ∨
     (t.status = .faulted ∧ t.mem = s.mem ∧ t.pc = s.pc ∧ ∃ k, t.faultKind = some k) ∨
     (t.status = .running ∧ t.pc = s.pc + 4 ∧ t.faultKind = s.faultKind ∧
      ∃ c, memRead s (s.pc + 3) = .ok c ∧ ∀ x, x ≠ c → memRead t x = memRead s x))

/-- 60_exceptions.md sections 1 and 2 (`pc` unchanged is the spec's decision D9, log 12): after a step that faults, memory and `pc` are as
they were before it, `fault_kind` holds the fault, and `pc` is inside memory on an instruction that is no HALT. -/
def Obligations.FaultsArePrecise : Prop :=
  ∀ s t : State, s.status ≠ .faulted → step s = .next t → t.status = .faulted →
    t.mem = s.mem ∧ t.pc = s.pc ∧ t.params = s.params ∧ (∃ k, t.faultKind = some k) ∧ t.pc < t.len ∧ cellAt t.mem t.pc ≠ some 99

/-- 10_state.md section 4 and 42_control.md section 2: `pc` grows by 4 in a step that leaves the run `Running`, which fetched an ADD or MUL,
stays in every other step (in a fault by the spec's decision D9, log 12), and is 0 after `Reset`. -/
def Obligations.PcAdvancesByFourOrStays : Prop :=
  (∀ s t : State, step s = .next t →
    (s.status = .running ∧ t.status = .running ∧ t.pc = s.pc + 4 ∧ ∃ i, fetch s = .ok i ∧ i ≠ .halt) ∨
    (¬(s.status = .running ∧ t.status = .running) ∧ t.pc = s.pc)) ∧
  ∀ (s t : State) (img : List Cell), resetWith img s = .next t → t.pc = 0

/-- 42_control.md section 2: a run that is still `Running` after `n` steps has advanced by exactly 4 in each of them and has stayed inside
memory, so instructions run in strictly increasing address order, each at most once. -/
def Obligations.RunningAfterStepsHasAdvanced : Prop :=
  ∀ (n : Nat) (s t : State), Host.Core.run core n s = .next t → t.status = .running →
    s.status = .running ∧ t.pc = s.pc + 4 * n ∧ (0 < n → t.pc ≤ t.len)

/-! ### Arithmetic -/

/-- 41_arithmetic.md R72, with the order of R71: an ADD whose three addresses are valid and whose exact sum fits a cell (with `W = inf` every
sum does) stores the sum of the two cells as they were before the write, even if `c = a` or `c = b`, changes no other cell and advances
`pc` by 4; and the step that finds its cells at `pc` does so. -/
def Obligations.AddStoresTheExactSum : Prop :=
  ∀ (s : State) (a b c x y : Cell), memRead s a = .ok x → memRead s b = .ok y → validAddr s c = true →
    fitsW s.params.width (x + y) = true →
    StoresAndAdvances (exec (.add a b c) s) s c (x + y) ∧
    ∀ rest, s.status = .running → cellsFrom s s.pc = 1 :: a :: b :: c :: rest → StoresAndAdvances (step s) s c (x + y)

/-- 41_arithmetic.md R75: the same for MUL with the exact product. -/
def Obligations.MulStoresTheExactProduct : Prop :=
  ∀ (s : State) (a b c x y : Cell), memRead s a = .ok x → memRead s b = .ok y → validAddr s c = true →
    fitsW s.params.width (x * y) = true →
    StoresAndAdvances (exec (.mul a b c) s) s c (x * y) ∧
    ∀ rest, s.status = .running → cellsFrom s s.pc = 2 :: a :: b :: c :: rest → StoresAndAdvances (step s) s c (x * y)

/-- 41_arithmetic.md section 3 (the spec's decision D3, log 8; checked before the destination by D10, log 13): with `OVF = fault` an ADD
or MUL whose exact result does not fit raises `ArithOverflow` and writes nothing, whatever its destination; `pc` stays by D9 (log 12). -/
def Obligations.OverflowFaultsUnderFaultMode : Prop :=
  ∀ (s : State) (a b c x y : Cell), memRead s a = .ok x → memRead s b = .ok y → s.params.ovf = .fault →
    (fitsW s.params.width (x + y) = false → FaultsWith (exec (.add a b c) s) s .arithOverflow) ∧
    (fitsW s.params.width (x * y) = false → FaultsWith (exec (.mul a b c) s) s .arithOverflow)

/-- 41_arithmetic.md section 3 (the spec's decision D3, log 8): with `OVF = wrap` and a valid destination, an ADD or MUL whose result does
not fit stores `wrap_W` of it and advances. -/
def Obligations.OverflowWrapsUnderWrapMode : Prop :=
  ∀ (s : State) (a b c x y : Cell), memRead s a = .ok x → memRead s b = .ok y → validAddr s c = true → s.params.ovf = .wrap →
    (fitsW s.params.width (x + y) = false →
      StoresAndAdvances (exec (.add a b c) s) s c (wrapW s.params.width (x + y))) ∧
    (fitsW s.params.width (x * y) = false →
      StoresAndAdvances (exec (.mul a b c) s) s c (wrapW s.params.width (x * y)))

/-- 00_scope.md section 5 (a definition of the spec, D2): `wrap_W(v)` is the unique integer congruent to `v` modulo `2^W` in the signed
range of `W` bits. -/
def Obligations.WrapIsTheUniqueRepresentative : Prop :=
  ∀ (w : Nat) (v : Int), 1 ≤ w →
    fitsW (.bits w) (wrapW (.bits w) v) = true ∧ (wrapW (.bits w) v - v) % 2 ^ w = 0 ∧
    ∀ r : Int, fitsW (.bits w) r = true → (r - v) % 2 ^ w = 0 → r = wrapW (.bits w) v

/-- 60_exceptions.md section 2 (the spec's decisions D6 and D10, log 9 and 13): the faults of ADD and MUL come in the order source `a`,
source `b`, overflow, destination `c`; memory and `pc` stay, `pc` by D9 (log 12). -/
def Obligations.ArithmeticFaultsComeInOrder : Prop :=
  ∀ (s : State) (a b c : Cell),
    (validAddr s a = false →
      FaultsWith (exec (.add a b c) s) s .outOfBounds ∧ FaultsWith (exec (.mul a b c) s) s .outOfBounds) ∧
    (validAddr s a = true → validAddr s b = false →
      FaultsWith (exec (.add a b c) s) s .outOfBounds ∧ FaultsWith (exec (.mul a b c) s) s .outOfBounds) ∧
    ∀ x y, memRead s a = .ok x → memRead s b = .ok y → validAddr s c = false →
      FaultsWith (exec (.add a b c) s) s
        (if fitsW s.params.width (x + y) = true ∨ s.params.ovf = .wrap then .outOfBounds else .arithOverflow) ∧
      FaultsWith (exec (.mul a b c) s) s
        (if fitsW s.params.width (x * y) = true ∨ s.params.ovf = .wrap then .outOfBounds else .arithOverflow)

/-- 20_memory.md section 1 and 41_arithmetic.md sections 1 and 2, the frame of ADD and MUL: whatever the operands, every address other than
the destination operand `c` reads as before, `LEN` and the parameters stay, and `status`, `fault_kind` and `pc` stay but for the advance by
4, or the fault transition is taken and memory and `pc` stay (`pc` by the spec's decision D9, log 12). -/
def Obligations.ArithmeticFrame : Prop :=
  ∀ (i : Instr) (a b c : Cell) (s t : State), i = .add a b c ∨ i = .mul a b c → exec i s = .next t →
    (∀ x, x ≠ c → memRead t x = memRead s x) ∧ t.len = s.len ∧ t.params = s.params ∧
    ((t.status = s.status ∧ t.faultKind = s.faultKind ∧ t.pc = s.pc + 4) ∨
     (t.status = .faulted ∧ (∃ k, t.faultKind = some k) ∧ t.mem = s.mem ∧ t.pc = s.pc))

/-- 41_arithmetic.md section 4: both reads come before the write and the captured addresses are used. Where the destination is a source or
one of the instruction's own four cells, the step still stores the result of the values before the write at the captured `c`. A result
that does not fit is stored wrapped under `OVF = wrap`, by the spec's decision D3 (log 8). -/
def Obligations.OperandsAreReadBeforeTheWrite : Prop :=
  ∀ (s : State) (a b c x y v : Cell) (rest : List Cell), s.status = .running → memRead s a = .ok x → memRead s b = .ok y →
    validAddr s c = true → (c = a ∨ c = b ∨ (s.pc ≤ c ∧ c ≤ s.pc + 3)) →
    (cellsFrom s s.pc = 1 :: a :: b :: c :: rest → narrow s.params (x + y) = some v → StoresAndAdvances (step s) s c v) ∧
    (cellsFrom s s.pc = 2 :: a :: b :: c :: rest → narrow s.params (x * y) = some v → StoresAndAdvances (step s) s c v)

/-- 41_arithmetic.md section 4: a destination at or after `pc + 4` overwrites an instruction that has not been fetched yet, and the next step
fetches and executes the new value, whether it is an opcode or an operand. After a step that stores `v` at `c >= pc + 4`, the cells the next
step fetches from are the old ones with `v` in its place. If `c` is the next opcode cell, the next step halts for 99, raises
`UnknownOpcode` for a value that is no opcode, and executes the ADD or MUL with the cells after it for 1 or 2; if it is an operand cell of
the next ADD or MUL, that instruction is executed with `v` as the operand; and a store beyond it leaves it as it was. A result that does
not fit is stored wrapped under `OVF = wrap` by the spec's decision D3 (log 8), and the fault leaves `pc` by its decision D9 (log 12). -/
def Obligations.StoreIsSeenByTheNextFetch : Prop :=
  ∀ (s t : State) (a b x y v : Cell) (c : Nat) (rest : List Cell), s.status = .running → memRead s a = .ok x → memRead s b = .ok y →
    s.pc + 4 ≤ c → c < s.len →
    (cellsFrom s s.pc = 1 :: a :: b :: c :: rest ∧ narrow s.params (x + y) = some v) ∨
      (cellsFrom s s.pc = 2 :: a :: b :: c :: rest ∧ narrow s.params (x * y) = some v) →
    step s = .next t →
    cellAt t.mem c = some v ∧ t.pc = s.pc + 4 ∧ t.status = .running ∧
    cellsFrom t t.pc = (cellsFrom s (s.pc + 4)).set (c - (s.pc + 4)) v ∧
    (c = s.pc + 4 →
      (v = 99 → HaltsUnchanged (step t) t) ∧
      (v ≠ 1 → v ≠ 2 → v ≠ 99 → FaultsWith (step t) t .unknownOpcode) ∧
      ∀ (a' b' c' : Cell) (rest' : List Cell), cellsFrom s (c + 1) = a' :: b' :: c' :: rest' →
        (v = 1 → step t = exec (.add a' b' c') t) ∧ (v = 2 → step t = exec (.mul a' b' c') t)) ∧
    ∀ (op a' b' c' : Cell) (rest' : List Cell), cellsFrom s (s.pc + 4) = op :: a' :: b' :: c' :: rest' →
      (c = s.pc + 5 → (op = 1 → step t = exec (.add v b' c') t) ∧ (op = 2 → step t = exec (.mul v b' c') t)) ∧
      (c = s.pc + 6 → (op = 1 → step t = exec (.add a' v c') t) ∧ (op = 2 → step t = exec (.mul a' v c') t)) ∧
      (c = s.pc + 7 → (op = 1 → step t = exec (.add a' b' v) t) ∧ (op = 2 → step t = exec (.mul a' b' v) t)) ∧
      (s.pc + 8 ≤ c → (op = 1 → step t = exec (.add a' b' c') t) ∧ (op = 2 → step t = exec (.mul a' b' c') t))

/-- 20_memory.md section 4: every read sees the latest earlier write, so through any number of steps an address reads as it did before them,
as long as none of them fetches an ADD or MUL whose destination operand is that address. -/
def Obligations.CellsKeepTheirValueUntilStored : Prop :=
  ∀ (n : Nat) (s u : State) (x : Int), Host.Core.run core n s = .next u →
    (∀ (m : Nat) (w : State) (i : Instr), m < n → Host.Core.run core m s = .next w → w.status = .running → fetch w = .ok i →
      i.operands[2]? ≠ some x) →
    memRead u x = memRead s x

/-- 41_arithmetic.md section 3: ADD and MUL are commutative in their results, and with invalid sources the fault kind is the same, so
exchanging the sources changes no outcome. -/
def Obligations.SourcesMayBeExchanged : Prop :=
  ∀ (s : State) (a b c : Cell), exec (.add a b c) s = exec (.add b a c) s ∧ exec (.mul a b c) s = exec (.mul b a c) s

/-! ### Control -/

/-- 42_control.md R79: HALT sets `status` to `Halted` and changes nothing else, in the last cell as elsewhere, whatever stands after it; a
step whose opcode cell is 99 does so, the run is then finished, and later steps change nothing. -/
def Obligations.HaltStopsTheRun : Prop :=
  (∀ s : State, HaltsUnchanged (exec .halt s) s) ∧
  ∀ s : State, s.status = .running → cellAt s.mem s.pc = some 99 →
    HaltsUnchanged (step s) s ∧ ∀ t, step s = .next t → t.isFinished = true ∧ step t = .next t

/-- 42_control.md section 1 (off the end by the spec's decision D7, log 10): HALT and running off the end have one outcome, `Halted` and
finished, and comparing `pc` with `LEN` still tells them apart. -/
def Obligations.HaltAndRunningOffTheEndEndAlike : Prop :=
  ∀ s : State, s.status = .running → (cellAt s.mem s.pc = some 99 ∨ s.len ≤ s.pc) →
    HaltsUnchanged (step s) s ∧ ∀ t, step s = .next t → t.isFinished = true ∧ (t.len ≤ t.pc ↔ s.len ≤ s.pc)

/-! ### Memory -/

/-- 20_memory.md section 1 (negative addresses by the spec's decision D6, log 9): a read answers the cell exactly when `0 <= a < LEN`, and
`OutOfBounds` otherwise. -/
def Obligations.ReadAnswersExactlyAtValidAddresses : Prop :=
  ∀ (s : State) (a : Int),
    (0 ≤ a ∧ a < s.len → ∃ v, s.mem[a.toNat]? = some v ∧ memRead s a = .ok v) ∧
    (a < 0 ∨ s.len ≤ a → memRead s a = .error .outOfBounds)

/-- 20_memory.md section 1 (D6, log 9): a write at a valid address changes that cell and nothing else; at any other address it fails with
`OutOfBounds` and there is no new state. -/
def Obligations.WriteChangesOneCell : Prop :=
  ∀ (s : State) (a : Int) (v : Cell),
    (0 ≤ a ∧ a < s.len → ∃ t, memWrite s a v = .ok t ∧ memRead t a = .ok v ∧ (∀ x, x ≠ a → memRead t x = memRead s x) ∧
      t.len = s.len ∧ t.pc = s.pc ∧ t.status = s.status ∧ t.faultKind = s.faultKind ∧ t.params = s.params) ∧
    (a < 0 ∨ s.len ≤ a → memWrite s a v = .error .outOfBounds)

/-- 10_state.md section 2: no step and no host operation but `Reset` changes `LEN`. That none of them, `Reset` included, changes the
parameters of 00_scope.md section 4 is the model's choice (log 1). -/
def Obligations.LengthIsFixedAfterReset : Prop :=
  (∀ s t : State, step s = .next t → t.len = s.len ∧ t.params = s.params) ∧
  ∀ (q : Transaction) (s t : State) (r : Reply), transact q s = .next (t, r) →
    t.params = s.params ∧ ((∀ img, q ≠ .reset img) → t.len = s.len)

/-- 00_scope.md section 4 (R7 is the spec's own derivation): in a memory in its form every valid address fits a cell. -/
def Obligations.ValidAddressesFitACell : Prop :=
  ∀ (s : State) (a : Int), s.MemInv → validAddr s a = true → fitsW s.params.width a = true

/-! ### Reset and invariants -/

/-- 10_state.md section 5 (`fault_kind` by the spec's decision D20, log 17): what an accepted `Reset(img)` leaves, in any state before it. -/
def Obligations.ResetLeavesTheImageAndPcZero : Prop :=
  ∀ (s : State) (img : List Cell), Memory.wf s.params img = true →
    ∃ t, resetWith img s = .next t ∧ t.len = img.length ∧ (∀ n : Nat, cellAt t.mem n = img[n]?) ∧ t.pc = 0 ∧
      t.status = .running ∧ t.faultKind = none ∧ t.params = s.params

/-- 70_reset_and_hazards.md section 1 (the spec's decision D20, log 17): nothing of the previous run survives `Reset`. -/
def Obligations.ResetForgetsThePreviousRun : Prop :=
  ∀ (s s' : State) (img : List Cell), s.params = s'.params → resetWith img s = resetWith img s'

/-- 70_reset_and_hazards.md section 1 (the spec's decision D23, log 19): `Reset` is refused exactly when the image is longer than `MAXLEN`
or holds a value that does not fit `W`. -/
def Obligations.ResetRefusesExactlyBadImages : Prop :=
  ∀ (s : State) (img : List Cell),
    resetWith img s = .refused .imageRefused ↔
      s.params.maxLen < img.length ∨ ∃ v ∈ img, ∃ w, s.params.width = .bits w ∧ ¬(-(2 ^ (w - 1)) ≤ v ∧ v < 2 ^ (w - 1))

/-- The state after reset has the invariant of a run, and so has the state any accepted `Reset` leaves with legal parameters. The parameters
and the empty image of `State.reset` are the model's choice (log 2 and 3). -/
def Obligations.ResetStateHasTheRunInvariant : Prop :=
  State.reset.Inv ∧
  ∀ (s t : State) (img : List Cell), s.params.wf = true → resetWith img s = .next t → t.Inv

/-- 40_step.md sections 2 and 5, 10_state.md sections 2 and 4: from every state that has it, a step keeps the invariant: `pc` is a multiple of 4 and
at most `LEN`, every cell fits `W` and `LEN <= MAXLEN`, `fault_kind` is set exactly when `status` is `Faulted`, a halted run is finished
and a faulted one is not. The steps off the end, in `Faulted` and into a fault are those of the spec's decisions D7, D8 and D9 (log 10 to 12). -/
def Obligations.StepKeepsTheRunInvariant : Prop :=
  ∀ s t : State, s.Inv → step s = .next t → t.Inv

/-- The same sections, 10_state.md section 7 and 70_reset_and_hazards.md section 1: from every state that has the run invariant, whichever
transaction is made, `Run` and `Reset` among them, the state it leaves has it. That `Reset` keeps the parameters is the model's choice
(log 1). -/
def Obligations.TransactionKeepsTheRunInvariant : Prop :=
  ∀ (q : Transaction) (s t : State) (r : Reply), s.Inv → transact q s = .next (t, r) → t.Inv

/-- The same sections, for every state that any sequence of host transactions leads to from a `Reset` with legal parameters. -/
def Obligations.ReachableStatesHaveTheRunInvariant : Prop := ∀ s : State, Reachable s → s.Inv

/-- 40_step.md R62: `IsFinished()` is true exactly when `pc >= LEN` or the cell at `pc` holds 99, at any `status`, and it changes nothing. -/
def Obligations.FinishedExactlyAtHaltOrEnd : Prop :=
  ∀ s : State, (s.isFinished = true ↔ s.len ≤ s.pc ∨ memRead s s.pc = .ok 99) ∧
    transact .isFinished s = .next (s, .finished s.isFinished)

/-- 40_step.md section 2 (R63 is the spec's own derivation): in every reachable state, a halted run is finished; a faulted run is not, its
opcode cell is 1 or 2 for `OutOfBounds` and `ArithOverflow` and no opcode for `UnknownOpcode`; and a running finished state halts next (with the spec's decisions D7 to
D9, log 10 to 12). -/
def Obligations.FinishedAndStatusAgree : Prop :=
  ∀ s : State, Reachable s →
    (s.status = .halted → s.isFinished = true) ∧
    (s.status = .faulted → s.isFinished = false ∧ s.pc < s.len ∧ ∃ v, cellAt s.mem s.pc = some v ∧
      (s.faultKind = some .outOfBounds ∨ s.faultKind = some .arithOverflow → v = 1 ∨ v = 2) ∧
      (s.faultKind = some .unknownOpcode → v ≠ 1 ∧ v ≠ 2 ∧ v ≠ 99)) ∧
    (s.status = .running → s.isFinished = true → HaltsUnchanged (step s) s)

/-! ### Running -/

/-- 40_step.md section 3 (R66 is the spec's own derivation): from every state `Run()` ends, with a terminal `status`, within
`floor(LEN / 4) + 1` steps, so that any larger number of rounds gives the same (a run off the end halts by the spec's decision D7, log 10). -/
def Obligations.RunEndsWithinTheStepBound : Prop :=
  ∀ s : State, ∃ t, run s = .next t ∧ t.status ≠ .running ∧ ∀ n, s.len / 4 + 1 ≤ n → runFor n s = .next t

/-- 40_step.md section 3 (the loop condition is the spec's decision D21, log 18): `Run()` is the loop `while status == Running: Step()`. -/
def Obligations.RunIsTheLoopOverSteps : Prop :=
  ∀ s : State, (s.status ≠ .running → run s = .next s) ∧
    (s.status = .running → ∃ t, step s = .next t ∧ run s = run t)

/-- 40_step.md section 3 (R65 is the spec's own derivation): the spec's `Run` and the source's loop leave the same memory, `pc` and
`fault_kind` from every state, and differ in `status` only where the source's loop stops at `Running` and the spec's at `Halted` (the spec's decisions D7 and D21, log 10 and 18). -/
def Obligations.RunAgreesWithTheSourceLoop : Prop :=
  ∀ s : State, ∃ t u, run s = .next t ∧ sourceRun s = .next u ∧ t.mem = u.mem ∧ t.pc = u.pc ∧ t.faultKind = u.faultKind ∧
    (t.status = u.status ∨ (t.status = .halted ∧ u.status = .running ∧ u.isFinished = true))

/-- 60_exceptions.md section 6: a run from a state in which `fault_kind` is set exactly when `status` is `Faulted` ends normally with no
fault, or in failure with its kind recorded; `Run()` reports both. -/
def Obligations.RunEndsNormallyOrInFailure : Prop :=
  ∀ s : State, s.FaultInv → ∃ t, run s = .next t ∧ transact .run s = .next (t, .ended t.status t.faultKind) ∧
    ((t.EndedNormally ∧ t.faultKind = none) ∨ (t.EndedInFailure ∧ ∃ k, t.faultKind = some k))

/-! ### The host -/

/-- 10_state.md section 7 and 40_step.md section 4 (D12, D16; log 14 and 16): the read-only transactions answer what the state holds and change
nothing, at any `status`; `Peek` of an invalid address is an error to the host and no fault of the run. -/
def Obligations.InspectionChangesNothing : Prop :=
  ∀ (s : State) (a : Int),
    transact .status s = .next (s, .statusIs s.status s.faultKind s.pc) ∧
    transact .isFinished s = .next (s, .finished s.isFinished) ∧
    (∀ v, 0 ≤ a → s.mem[a.toNat]? = some v → transact (.peek a) s = .next (s, .cell v)) ∧
    (a < 0 ∨ s.len ≤ a → transact (.peek a) s = .next (s, .error .outOfBounds))

/-- 10_state.md section 7 (the spec's decisions D15 and D23; log 15 and 19): `Step()` leaves what a step leaves, `Run()` what the run leaves,
with its final `status` and `fault_kind` as the reply, and `Reset(img)` the state of the accepted image, or is refused. -/
def Obligations.ActingTransactionsDoTheirOperation : Prop :=
  ∀ (s : State) (img : List Cell),
    (∃ t, step s = .next t ∧ transact .step s = .next (t, .done)) ∧
    (∃ t, run s = .next t ∧ transact .run s = .next (t, .ended t.status t.faultKind)) ∧
    (Memory.wf s.params img = true → ∃ t, resetWith img s = .next t ∧ transact (.reset img) s = .next (t, .done)) ∧
    (Memory.wf s.params img = false →
      resetWith img s = .refused .imageRefused ∧ transact (.reset img) s = .refused .imageRefused)

/-- The numbers the host reads (10_state.md section 4; the spec's decision D11, log 14). -/
def Obligations.StatusAndFaultCodes : Prop :=
  (Status.running.code = 0 ∧ Status.halted.code = 1 ∧ Status.faulted.code = 2) ∧
  faultCode none = 0 ∧ faultCode (some .outOfBounds) = 1 ∧ faultCode (some .unknownOpcode) = 2 ∧ faultCode (some .arithOverflow) = 3

/-- 10_state.md R24: a transaction on one instance writes the state of no other, and what it does and answers depends on that instance's
state alone. -/
def Obligations.InstancesAreIndependent : Prop :=
  ∀ (k : Nat) (q : Transaction) (ss ss' : List State) (r : Reply), transactAt k q ss = some (.next (ss', r)) →
    ss'.length = ss.length ∧ (∀ j, j ≠ k → ss'[j]? = ss[j]?) ∧
    ∀ us : List State, us[k]? = ss[k]? → ∃ us', transactAt k q us = some (.next (us', r)) ∧ us'[k]? = ss'[k]?

/-- 60_exceptions.md section 6 (a short program by the spec's decision D24, log 20): `evaluate_direct` fails with `OutOfBounds` on a program
of fewer than 3 cells; else it resets with the image that has the noun at 1, the verb at 2 and the program elsewhere, runs it, and answers
the fault kind or the value at address 0. -/
def Obligations.EvaluateDirectRunsTheTrialImage : Prop :=
  ∀ (p : Params) (program : List Cell) (noun verb : Cell),
    (program.length < 3 → evaluateDirect p program noun verb = .error (.fault .outOfBounds)) ∧
    (3 ≤ program.length → Memory.wf p (trialImage program noun verb) = true →
      (trialImage program noun verb).length = program.length ∧
      (trialImage program noun verb)[1]? = some noun ∧ (trialImage program noun verb)[2]? = some verb ∧
      (∀ n, n ≠ 1 → n ≠ 2 → (trialImage program noun verb)[n]? = program[n]?) ∧
      ∃ t, run (State.load p (trialImage program noun verb)) = .next t ∧
        (t.status = .faulted → ∃ k, t.faultKind = some k ∧ evaluateDirect p program noun verb = .error (.fault k)) ∧
        (t.status ≠ .faulted → ∃ v, cellAt t.mem 0 = some v ∧ evaluateDirect p program noun verb = .ok v))

/-- 60_exceptions.md section 6: `search` answers the first pair, noun-major and verb-minor, whose trial gives the target, skipping the trials
that fail, and `NotFound` exactly when no pair gives it. That a trial of a short program fails is the spec's decision D24, and that a trial
whose `Reset` is refused fails, and so is skipped, is the model's choice (log 20). -/
def Obligations.SearchFindsTheFirstMatch : Prop :=
  ∀ (p : Params) (program : List Cell) (target : Cell) (nouns verbs : List Cell),
    (∀ noun verb, search p program target nouns verbs = some (noun, verb) →
      ∃ ns ns' vs vs', nouns = ns ++ noun :: ns' ∧ verbs = vs ++ verb :: vs' ∧
        evaluateDirect p program noun verb = .ok target ∧
        (∀ n ∈ ns, ∀ v ∈ verbs, evaluateDirect p program n v ≠ .ok target) ∧
        (∀ v ∈ vs, evaluateDirect p program noun v ≠ .ok target)) ∧
    (search p program target nouns verbs = none ↔
      ∀ n ∈ nouns, ∀ v ∈ verbs, evaluateDirect p program n v ≠ .ok target)

/-- 60_exceptions.md section 6: direct-run mode evaluates with noun 12 and verb 2; search mode scans `[0, 99]` by `[0, 99]` for 19690720 and
answers `noun * 100 + verb`; a range holds exactly the values between its ends, each once, in ascending order. The literals are the source's, unaudited (93_implementation_defined.md section 3). -/
def Obligations.HostModesUseTheSourceLiterals : Prop :=
  ∀ (p : Params) (program : List Cell),
    directRun DriverParams.source p program = evaluateDirect p program 12 2 ∧
    (∀ (lo hi : Nat) (v : Int), v ∈ rangeInclusive lo hi ↔ (lo : Int) ≤ v ∧ v ≤ hi) ∧
    (∀ lo hi : Nat, (rangeInclusive lo hi).Pairwise (fun v w => v < w)) ∧
    (∀ noun verb, search p program 19690720 (rangeInclusive 0 99) (rangeInclusive 0 99) = some (noun, verb) →
      searchRun DriverParams.source p program = some (noun * 100 + verb)) ∧
    (search p program 19690720 (rangeInclusive 0 99) (rangeInclusive 0 99) = none →
      searchRun DriverParams.source p program = none)

/-- 30_encoding.md section 5 (the spec's decision D19; log 24): where a list of lines assembles, each line's cells stand at the address that
is the total size of the lines before it, an operand stands for its literal or its label's address, and a label names its line's
address. -/
def Obligations.AssembledLinesStandAtTheirAddresses : Prop :=
  ∀ (before after : List AsmLine) (l : AsmLine) (cs : List Cell), assemble (before ++ l :: after) = .ok cs →
    (∀ n, l.label = some n →
      resolve (labelsFrom 0 (before ++ l :: after)) (.label n) = .ok ((before.map (fun x => x.body.size)).sum : Nat)) ∧
    ∃ mine rest, emit (labelsFrom 0 (before ++ l :: after)) l.body = .ok mine ∧ mine.length = l.body.size ∧
      cs.drop (before.map (fun x => x.body.size)).sum = mine ++ rest ∧
      match l.body with
      | .add a b c => ∃ x y z, resolve (labelsFrom 0 (before ++ l :: after)) a = .ok x ∧
          resolve (labelsFrom 0 (before ++ l :: after)) b = .ok y ∧ resolve (labelsFrom 0 (before ++ l :: after)) c = .ok z ∧
          mine = [1, x, y, z]
      | .mul a b c => ∃ x y z, resolve (labelsFrom 0 (before ++ l :: after)) a = .ok x ∧
          resolve (labelsFrom 0 (before ++ l :: after)) b = .ok y ∧ resolve (labelsFrom 0 (before ++ l :: after)) c = .ok z ∧
          mine = [2, x, y, z]
      | .halt => mine = [99]
      | .cell v => mine = [v]

/-- The model's own helper (log 21 and 22): placing an instruction's word where the step fetches makes the next step run it. -/
def Obligations.PlacedWordIsTheNextInstruction : Prop :=
  ∀ (s : State) (nbits w : Nat) (i : Instr), decodeTableWord nbits w = some i →
    step (s.withFetchWord nbits w) = exec i (s.withFetchWord nbits w) ∧
    (s.withFetchWord nbits w).pc = s.pc ∧ (s.withFetchWord nbits w).params = s.params
end

