-- ==== Sys2Proof/Laws/State.lean ====
section
/-! SUPPORT. One lemma per field and update of the state, so that no proof unfolds a record update. -/

namespace Sys2Proof.Machine

@[simp] theorem State.setMem_params (s : State) (m : Memory) : (s.setMem m).params = s.params := rfl
@[simp] theorem State.setMem_mem (s : State) (m : Memory) : (s.setMem m).mem = m := rfl
@[simp] theorem State.setMem_pc (s : State) (m : Memory) : (s.setMem m).pc = s.pc := rfl
@[simp] theorem State.setMem_status (s : State) (m : Memory) : (s.setMem m).status = s.status := rfl
@[simp] theorem State.setMem_faultKind (s : State) (m : Memory) : (s.setMem m).faultKind = s.faultKind := rfl
@[simp] theorem State.setMem_len (s : State) (m : Memory) : (s.setMem m).len = m.length := rfl

@[simp] theorem State.setPc_params (s : State) (n : Nat) : (s.setPc n).params = s.params := rfl
@[simp] theorem State.setPc_mem (s : State) (n : Nat) : (s.setPc n).mem = s.mem := rfl
@[simp] theorem State.setPc_pc (s : State) (n : Nat) : (s.setPc n).pc = n := rfl
@[simp] theorem State.setPc_status (s : State) (n : Nat) : (s.setPc n).status = s.status := rfl
@[simp] theorem State.setPc_faultKind (s : State) (n : Nat) : (s.setPc n).faultKind = s.faultKind := rfl
@[simp] theorem State.setPc_len (s : State) (n : Nat) : (s.setPc n).len = s.len := rfl

@[simp] theorem State.setStatus_params (s : State) (st : Status) : (s.setStatus st).params = s.params := rfl
@[simp] theorem State.setStatus_mem (s : State) (st : Status) : (s.setStatus st).mem = s.mem := rfl
@[simp] theorem State.setStatus_pc (s : State) (st : Status) : (s.setStatus st).pc = s.pc := rfl
@[simp] theorem State.setStatus_status (s : State) (st : Status) : (s.setStatus st).status = st := rfl
@[simp] theorem State.setStatus_faultKind (s : State) (st : Status) : (s.setStatus st).faultKind = s.faultKind := rfl
@[simp] theorem State.setStatus_len (s : State) (st : Status) : (s.setStatus st).len = s.len := rfl

@[simp] theorem State.setFaultKind_params (s : State) (k : Option FaultKind) : (s.setFaultKind k).params = s.params := rfl
@[simp] theorem State.setFaultKind_mem (s : State) (k : Option FaultKind) : (s.setFaultKind k).mem = s.mem := rfl
@[simp] theorem State.setFaultKind_pc (s : State) (k : Option FaultKind) : (s.setFaultKind k).pc = s.pc := rfl
@[simp] theorem State.setFaultKind_status (s : State) (k : Option FaultKind) : (s.setFaultKind k).status = s.status := rfl
@[simp] theorem State.setFaultKind_faultKind (s : State) (k : Option FaultKind) : (s.setFaultKind k).faultKind = k := rfl
@[simp] theorem State.setFaultKind_len (s : State) (k : Option FaultKind) : (s.setFaultKind k).len = s.len := rfl

@[simp] theorem State.takeFault_params (s : State) (k : FaultKind) : (s.takeFault k).params = s.params := rfl
@[simp] theorem State.takeFault_mem (s : State) (k : FaultKind) : (s.takeFault k).mem = s.mem := rfl
@[simp] theorem State.takeFault_pc (s : State) (k : FaultKind) : (s.takeFault k).pc = s.pc := rfl
@[simp] theorem State.takeFault_status (s : State) (k : FaultKind) : (s.takeFault k).status = .faulted := rfl
@[simp] theorem State.takeFault_faultKind (s : State) (k : FaultKind) : (s.takeFault k).faultKind = some k := rfl
@[simp] theorem State.takeFault_len (s : State) (k : FaultKind) : (s.takeFault k).len = s.len := rfl

@[simp] theorem State.halt_params (s : State) : s.halt.params = s.params := rfl
@[simp] theorem State.halt_mem (s : State) : s.halt.mem = s.mem := rfl
@[simp] theorem State.halt_pc (s : State) : s.halt.pc = s.pc := rfl
@[simp] theorem State.halt_status (s : State) : s.halt.status = .halted := rfl
@[simp] theorem State.halt_faultKind (s : State) : s.halt.faultKind = s.faultKind := rfl
@[simp] theorem State.halt_len (s : State) : s.halt.len = s.len := rfl

@[simp] theorem State.advance_params (s : State) : s.advance.params = s.params := rfl
@[simp] theorem State.advance_mem (s : State) : s.advance.mem = s.mem := rfl
@[simp] theorem State.advance_pc (s : State) : s.advance.pc = s.pc + 4 := rfl
@[simp] theorem State.advance_status (s : State) : s.advance.status = s.status := rfl
@[simp] theorem State.advance_faultKind (s : State) : s.advance.faultKind = s.faultKind := rfl
@[simp] theorem State.advance_len (s : State) : s.advance.len = s.len := rfl

@[simp] theorem State.load_params (p : Params) (img : List Cell) : (State.load p img).params = p := rfl
@[simp] theorem State.load_mem (p : Params) (img : List Cell) : (State.load p img).mem = img := rfl
@[simp] theorem State.load_pc (p : Params) (img : List Cell) : (State.load p img).pc = 0 := rfl
@[simp] theorem State.load_status (p : Params) (img : List Cell) : (State.load p img).status = .running := rfl
@[simp] theorem State.load_faultKind (p : Params) (img : List Cell) : (State.load p img).faultKind = none := rfl
@[simp] theorem State.load_len (p : Params) (img : List Cell) : (State.load p img).len = img.length := rfl

@[simp] theorem State.isTerminal_eq_false (s : State) : s.isTerminal = false ↔ s.status = .running := by
  cases h : s.status <;> simp [State.isTerminal, h]

theorem State.isTerminal_eq_true (s : State) : s.isTerminal = true ↔ s.status ≠ .running := by
  cases h : s.status <;> simp [State.isTerminal, h]

theorem State.offEnd_eq_true (s : State) : s.offEnd = true ↔ s.len ≤ s.pc := by simp [State.offEnd]

theorem State.offEnd_eq_false (s : State) : s.offEnd = false ↔ s.pc < s.len := by simp [State.offEnd]

end Sys2Proof.Machine
end

