-- ==== Sys2Proof/Laws/Ops.lean ====
section
/-! SUPPORT. What the memory primitives and the arithmetic helpers can do, said once for each, and that every memory operation keeps
the memory's form. -/

namespace Sys2Proof.Machine

@[simp] theorem cellAt_natCast (m : Memory) (n : Nat) : cellAt m (n : Int) = m[n]? := rfl

theorem cellAt_neg {m : Memory} {a : Int} (h : a < 0) : cellAt m a = none := by
  cases a with
  | ofNat n => exact absurd h (by simp)
  | negSucc n => rfl

theorem validAddr_iff {s : State} {a : Int} : validAddr s a = true ↔ 0 ≤ a ∧ a < s.len := by simp [validAddr]

/-- A cell stands at `a` exactly when `a` is a valid address. -/
theorem cellAt_eq_some_iff {m : Memory} {a : Int} {v : Cell} :
    cellAt m a = some v ↔ 0 ≤ a ∧ m[a.toNat]? = some v := by
  cases a with
  | ofNat n => simp [cellAt]
  | negSucc n => simp [cellAt]

theorem memRead_eq_ok_iff {s : State} {a : Int} {v : Cell} : memRead s a = .ok v ↔ cellAt s.mem a = some v := by
  unfold memRead; split <;> simp_all

theorem memRead_of_not_valid {s : State} {a : Int} (h : validAddr s a = false) : memRead s a = .error .outOfBounds := by
  unfold memRead
  split
  · next v hv =>
    rw [cellAt_eq_some_iff] at hv
    have hlt := (List.getElem?_eq_some_iff.mp hv.2).1
    have hval : validAddr s a = true := validAddr_iff.mpr ⟨hv.1, by simp only [State.len]; omega⟩
    simp [h] at hval
  · rfl

theorem memRead_of_valid {s : State} {a : Int} (h : validAddr s a = true) : ∃ v, memRead s a = .ok v := by
  obtain ⟨h0, h1⟩ := validAddr_iff.mp h
  have hlt : a.toNat < s.mem.length := by simp only [State.len] at h1; omega
  exact ⟨s.mem[a.toNat], memRead_eq_ok_iff.mpr (cellAt_eq_some_iff.mpr ⟨h0, List.getElem?_eq_getElem hlt⟩)⟩

theorem validAddr_of_memRead_ok {s : State} {a : Int} {v : Cell} (h : memRead s a = .ok v) : validAddr s a = true := by
  by_contra hv
  rw [memRead_of_not_valid (by simpa using hv)] at h
  cases h

theorem memRead_error_kind {s : State} {a : Int} {k : FaultKind} (h : memRead s a = .error k) : k = .outOfBounds := by
  unfold memRead at h; split at h <;> simp_all

/-- Two states with the same memory read alike. -/
theorem memRead_congr {s t : State} (h : t.mem = s.mem) (a : Int) : memRead t a = memRead s a := by
  unfold memRead; rw [h]

/-- Everything a write can do. -/
theorem memWrite_cases {s : State} {a : Int} {v : Cell} :
    (validAddr s a = true ∧ memWrite s a v = .ok (s.setMem (s.mem.set a.toNat v))) ∨
    (validAddr s a = false ∧ memWrite s a v = .error .outOfBounds) := by
  unfold memWrite; cases h : validAddr s a <;> simp

theorem cellAt_set_same {m : Memory} {a : Int} {v : Cell} (h0 : 0 ≤ a) (h1 : a < m.length) :
    cellAt (m.set a.toNat v) a = some v := by
  rw [cellAt_eq_some_iff]
  exact ⟨h0, by rw [List.getElem?_set_self (by omega)]⟩

theorem cellAt_set_other {m : Memory} {a x : Int} {v : Cell} (h0 : 0 ≤ a) (hx : x ≠ a) :
    cellAt (m.set a.toNat v) x = cellAt m x := by
  cases x with
  | ofNat n =>
    have : a.toNat ≠ n := by rintro rfl; exact hx (by simp [Int.toNat_of_nonneg h0])
    simp [cellAt, List.getElem?_set_ne this]
  | negSucc n => rfl

theorem memRead_set_same {s : State} {a : Int} {v : Cell} (h : validAddr s a = true) :
    memRead (s.setMem (s.mem.set a.toNat v)) a = .ok v := by
  obtain ⟨h0, h1⟩ := validAddr_iff.mp h
  exact memRead_eq_ok_iff.mpr (cellAt_set_same h0 (by simpa [State.len] using h1))

theorem memRead_set_other {s : State} {a x : Int} {v : Cell} (h : validAddr s a = true) (hx : x ≠ a) :
    memRead (s.setMem (s.mem.set a.toNat v)) x = memRead s x := by
  unfold memRead
  simp only [State.setMem_mem]
  rw [cellAt_set_other (validAddr_iff.mp h).1 hx]

/-! ### The memory's form -/

theorem Memory.wf_iff {p : Params} {m : Memory} :
    Memory.wf p m = true ↔ m.length ≤ p.maxLen ∧ ∀ v ∈ m, fitsW p.width v = true := by
  simp [Memory.wf]

theorem Memory.wf_set {p : Params} {m : Memory} {v : Cell} (n : Nat) (hm : Memory.wf p m = true)
    (hv : fitsW p.width v = true) : Memory.wf p (m.set n v) = true := by
  rw [Memory.wf_iff] at *
  refine ⟨by simpa using hm.1, fun x hx => ?_⟩
  rcases List.mem_or_eq_of_mem_set hx with h | rfl
  · exact hm.2 x h
  · exact hv

/-- A write of a value that fits keeps the memory's form. -/
theorem memWrite_keeps_wf {s t : State} {a : Int} {v : Cell} (hm : Memory.wf s.params s.mem = true)
    (hv : fitsW s.params.width v = true) (h : memWrite s a v = .ok t) : Memory.wf t.params t.mem = true := by
  rcases memWrite_cases (s := s) (a := a) (v := v) with ⟨-, h'⟩ | ⟨-, h'⟩ <;> rw [h'] at h <;> cases h
  exact Memory.wf_set _ hm hv

/-- `Reset` leaves a memory in its form. -/
theorem resetWith_wf {s t : State} {img : List Cell} (h : resetWith img s = .next t) :
    Memory.wf t.params t.mem = true := by
  unfold resetWith at h
  split at h
  · cases h; assumption
  · cases h

theorem State.reset_wf : Memory.wf State.reset.params State.reset.mem = true := by decide

/-! ### Results -/

theorem fitsW_wrapW {w : Nat} (hw : 1 ≤ w) (v : Int) : fitsW (.bits w) (wrapW (.bits w) v) = true := by
  obtain ⟨k, rfl⟩ : ∃ k, w = k + 1 := ⟨w - 1, by omega⟩
  have hp : (0 : Int) < 2 ^ k := by positivity
  have h2 : (2 : Nat) ^ (k + 1) = 2 * 2 ^ k := by ring
  have hpos : 0 < 2 ^ (k + 1) := by positivity
  have h3 := Int.le_bmod (x := v) hpos
  have h4 := Int.bmod_lt (x := v) hpos
  simp only [fitsW, wrapW, Nat.add_sub_cancel, decide_eq_true_eq]
  rw [h2] at h3 h4 ⊢
  push_cast at h3 h4 ⊢
  omega

/-- Everything that narrowing a result can do. -/
theorem narrow_cases (p : Params) (r : Int) :
    (fitsW p.width r = true ∧ narrow p r = some r) ∨
    (fitsW p.width r = false ∧ p.ovf = .fault ∧ narrow p r = none) ∨
    (fitsW p.width r = false ∧ p.ovf = .wrap ∧ narrow p r = some (wrapW p.width r)) := by
  unfold narrow
  cases h : fitsW p.width r <;> cases h' : p.ovf <;> simp

/-- A result that is stored fits a cell, whatever the parameters. -/
theorem narrow_fits {p : Params} {r v : Int} (hp : p.wf = true) (h : narrow p r = some v) :
    fitsW p.width v = true := by
  rcases narrow_cases p r with ⟨hf, hn⟩ | ⟨-, -, hn⟩ | ⟨-, -, hn⟩ <;> rw [hn] at h <;> cases h
  · exact hf
  · cases hw : p.width with
    | unbounded => rfl
    | bits w =>
      refine fitsW_wrapW ?_ r
      simp only [Params.wf, hw, Bool.and_eq_true, decide_eq_true_eq] at hp
      omega

end Sys2Proof.Machine
end

