-- ==== Sys2Proof/Laws/Exec.lean ====
section
/-! SUPPORT. What the meanings can do, said once. -/

namespace Sys2Proof.Machine

/-- The state a successful ADD or MUL leaves: `r` stored at `c`, `pc` advanced. -/
def State.stored (s : State) (c : Cell) (r : Cell) : State := (s.setMem (s.mem.set c.toNat r)).advance

@[simp] theorem State.stored_params (s : State) (c r : Cell) : (s.stored c r).params = s.params := rfl
@[simp] theorem State.stored_mem (s : State) (c r : Cell) : (s.stored c r).mem = s.mem.set c.toNat r := rfl
@[simp] theorem State.stored_pc (s : State) (c r : Cell) : (s.stored c r).pc = s.pc + 4 := rfl
@[simp] theorem State.stored_status (s : State) (c r : Cell) : (s.stored c r).status = s.status := rfl
@[simp] theorem State.stored_faultKind (s : State) (c r : Cell) : (s.stored c r).faultKind = s.faultKind := rfl
@[simp] theorem State.stored_len (s : State) (c r : Cell) : (s.stored c r).len = s.len := by
  simp [State.len]

/-- Everything ADD and MUL can do: fault and change nothing, or store and advance. -/
theorem binary_cases (f : Int → Int → Int) (a b c : Cell) (s : State) :
    (∃ k, binary f a b c s = .next (s.takeFault k)) ∨
    (∃ x y r, memRead s a = .ok x ∧ memRead s b = .ok y ∧ narrow s.params (f x y) = some r ∧
      validAddr s c = true ∧ binary f a b c s = .next (s.stored c r)) := by
  unfold binary readSource writeDest raiseFault
  cases ha : memRead s a with
  | error k => exact .inl ⟨k, rfl⟩
  | ok x =>
    cases hb : memRead s b with
    | error k => exact .inl ⟨k, rfl⟩
    | ok y =>
      cases hn : narrow s.params (f x y) with
      | none => exact .inl ⟨.arithOverflow, by simp only [hn]⟩
      | some r =>
        rcases memWrite_cases (s := s) (a := c) (v := r) with ⟨hc, hw⟩ | ⟨hc, hw⟩
        · exact .inr ⟨x, y, r, rfl, rfl, hn, hc, by simp only [hn, hw]; rfl⟩
        · exact .inl ⟨.outOfBounds, by simp only [hn, hw]⟩

/-- A successful ADD or MUL, from its operands. -/
theorem binary_stores {f : Int → Int → Int} {a b c x y r : Cell} {s : State} (ha : memRead s a = .ok x)
    (hb : memRead s b = .ok y) (hn : narrow s.params (f x y) = some r) (hc : validAddr s c = true) :
    binary f a b c s = .next (s.stored c r) := by
  rcases memWrite_cases (s := s) (a := c) (v := r) with ⟨-, hw⟩ | ⟨hc', -⟩
  · simp only [binary, readSource, writeDest, ha, hb, hn, hw]; rfl
  · simp [hc] at hc'

/-- Everything an instruction can do. -/
theorem exec_cases (i : Instr) (s : State) :
    (∃ k, exec i s = .next (s.takeFault k)) ∨
    (∃ c r, i.operands[2]? = some c ∧ validAddr s c = true ∧ exec i s = .next (s.stored c r) ∧
      (s.params.wf = true → fitsW s.params.width r = true)) ∨
    (i = .halt ∧ exec i s = .next s.halt) := by
  cases i with
  | add a b c =>
    rcases binary_cases (fun x y => x + y) a b c s with h | ⟨x, y, r, -, -, hn, hc, h⟩
    · exact .inl h
    · exact .inr (.inl ⟨c, r, rfl, hc, h, fun hp => narrow_fits hp hn⟩)
  | mul a b c =>
    rcases binary_cases (fun x y => x * y) a b c s with h | ⟨x, y, r, -, -, hn, hc, h⟩
    · exact .inl h
    · exact .inr (.inl ⟨c, r, rfl, hc, h, fun hp => narrow_fits hp hn⟩)
  | halt => exact .inr (.inr ⟨rfl, rfl⟩)

end Sys2Proof.Machine
end

