-- ==== Sys2Proof/Laws/PerInstr.lean ====
section
/-! SUPPORT. Statements about every instruction as syntax, one lemma per constructor. -/

namespace Sys2Proof.Laws.EncodingShape

/-- An instruction's cells are its opcode cell and then its operand cells in order (30_encoding.md R42). -/
def Statement (i : Instr) : Prop := encode i = i.opcode.value :: i.operands

theorem add (a b c : Cell) : Statement (.add a b c) := rfl

theorem mul (a b c : Cell) : Statement (.mul a b c) := rfl

theorem halt : Statement .halt := rfl

end Sys2Proof.Laws.EncodingShape
end

