-- ==== Sys2Proof/Laws/Step.lean ====
section
/-! SUPPORT. What decoding, fetching and a step can do, said once. -/

namespace Sys2Proof

/-- The opcode an opcode cell is classified as. -/
theorem Opcode.ofCell?_cases (v : Cell) :
    (v = 1 ∧ Opcode.ofCell? v = some .add) ∨ (v = 2 ∧ Opcode.ofCell? v = some .mul) ∨
    (v = 99 ∧ Opcode.ofCell? v = some .halt) ∨ (v ≠ 1 ∧ v ≠ 2 ∧ v ≠ 99 ∧ Opcode.ofCell? v = none) := by
  unfold Opcode.ofCell?
  split_ifs <;> simp_all

namespace Machine

/-- The cells from an address with a cell in it are that cell and the cells after it. -/
theorem cellsFrom_eq_cons {s : State} {a : Nat} {v : Cell} (h : cellAt s.mem a = some v) :
    cellsFrom s a = v :: cellsFrom s (a + 1) := by
  obtain ⟨hlt, rfl⟩ := List.getElem?_eq_some_iff.mp (by simpa using h)
  exact List.drop_eq_getElem_cons hlt

/-- The cells a run of cells from an address begins with stand in memory. -/
theorem cellAt_of_cellsFrom {s : State} {a : Nat} {v : Cell} {rest : List Cell} (h : cellsFrom s a = v :: rest) :
    cellAt s.mem a = some v ∧ cellsFrom s (a + 1) = rest := by
  unfold cellsFrom at *
  constructor
  · have := congrArg (fun l => l[0]?) h
    simpa [List.getElem?_drop] using this
  · rw [← List.drop_drop, h]; rfl

/-- What a fetched ADD or MUL says of the memory: its last operand cell exists, and it is no HALT. -/
theorem fetch_operands {s : State} {i : Instr} {c : Cell} (h : fetch s = .ok i) (hc : i.operands[2]? = some c) :
    cellAt s.mem ((s.pc + 3 : Nat) : Int) = some c ∧ s.pc + 3 < s.len ∧ cellAt s.mem s.pc ≠ some 99 := by
  unfold fetch at h
  split at h
  case h_2 => cases h
  case h_1 j rest hd =>
    cases h
    obtain ⟨v, l, hl⟩ : ∃ v l, cellsFrom s s.pc = v :: l := by
      cases hcf : cellsFrom s s.pc with
      | nil => rw [hcf] at hd; cases hd
      | cons v l => exact ⟨v, l, rfl⟩
    have key : v ≠ 99 ∧ ∃ a b r, l = a :: b :: c :: r := by
      rw [hl] at hd
      simp only [decode] at hd
      rcases Opcode.ofCell?_cases v with ⟨rfl, ho⟩ | ⟨rfl, ho⟩ | ⟨rfl, ho⟩ | ⟨-, -, -, ho⟩ <;> rw [ho] at hd
      · refine ⟨by decide, ?_⟩
        match l, hd with
        | a :: b :: c' :: r, hd => cases hd; cases hc; exact ⟨_, _, _, rfl⟩
      · refine ⟨by decide, ?_⟩
        match l, hd with
        | a :: b :: c' :: r, hd => cases hd; cases hc; exact ⟨_, _, _, rfl⟩
      · cases hd; cases hc
      · cases hd
    obtain ⟨hv, a, b, r, rfl⟩ := key
    have h0 := cellAt_of_cellsFrom hl
    have h1 := cellAt_of_cellsFrom h0.2
    have h2 := cellAt_of_cellsFrom h1.2
    have h3 := cellAt_of_cellsFrom h2.2
    refine ⟨h3.1, ?_, by rw [h0.1]; simpa using hv⟩
    simpa [State.len] using (List.getElem?_eq_some_iff.mp (by rw [← cellAt_natCast]; exact h3.1)).1

/-- A step that fetches no instruction fetched no HALT. -/
theorem fetch_error_not_halt {s : State} {k : FaultKind} (h : fetch s = .error k) : cellAt s.mem s.pc ≠ some 99 := by
  intro hc
  unfold fetch at h
  rw [cellsFrom_eq_cons hc] at h
  cases h

/-- A fetched HALT stands in the cell at `pc`. -/
theorem fetch_halt {s : State} (h : fetch s = .ok .halt) : cellAt s.mem s.pc = some 99 := by
  unfold fetch at h
  split at h
  case h_2 => cases h
  case h_1 j rest hd =>
    cases h
    cases hcf : cellsFrom s s.pc with
    | nil => rw [hcf] at hd; cases hd
    | cons v l =>
      rw [hcf] at hd
      simp only [decode] at hd
      rcases Opcode.ofCell?_cases v with ⟨rfl, ho⟩ | ⟨rfl, ho⟩ | ⟨rfl, ho⟩ | ⟨-, -, -, ho⟩ <;> rw [ho] at hd
      · match l, hd with
        | a :: b :: c :: r, hd => cases hd
      · match l, hd with
        | a :: b :: c :: r, hd => cases hd
      · exact (cellAt_of_cellsFrom hcf).1
      · cases hd

/-- What a running step below the end answers. -/
theorem step_running {s : State} (hs : s.status = .running) (hp : s.pc < s.len) :
    step s = match fetch s with
      | .error k => .next (s.takeFault k)
      | .ok i => exec i s := by
  cases hf : fetch s <;> simp [step, (State.isTerminal_eq_false s).mpr hs, (State.offEnd_eq_false s).mpr hp, raiseFault, hf]

theorem step_terminal {s : State} (hs : s.status ≠ .running) : step s = .next s := by
  simp [step, (State.isTerminal_eq_true s).mpr hs]

theorem step_offEnd {s : State} (hs : s.status = .running) (hp : s.len ≤ s.pc) : step s = .next s.halt := by
  simp [step, (State.isTerminal_eq_false s).mpr hs, (State.offEnd_eq_true s).mpr hp]

/-- Everything a step can do: nothing, because the run has ended; halt; fault and change nothing; or store one cell and advance. -/
theorem step_cases (s : State) :
    (s.status ≠ .running ∧ step s = .next s) ∨
    (s.status = .running ∧ s.isFinished = true ∧ step s = .next s.halt) ∨
    (s.status = .running ∧ s.isFinished = false ∧ ∃ k, step s = .next (s.takeFault k)) ∨
    (s.status = .running ∧ s.isFinished = false ∧ s.pc + 3 < s.len ∧
      ∃ c r, cellAt s.mem ((s.pc + 3 : Nat) : Int) = some c ∧ validAddr s c = true ∧ step s = .next (s.stored c r) ∧
        (s.params.wf = true → fitsW s.params.width r = true)) := by
  by_cases hs : s.status = .running
  case neg => exact .inl ⟨hs, step_terminal hs⟩
  by_cases hp : s.pc < s.len
  case neg =>
    have hp : s.len ≤ s.pc := by omega
    exact .inr (.inl ⟨hs, by simp [State.isFinished, (State.offEnd_eq_true s).mpr hp], step_offEnd hs hp⟩)
  have hfin : ∀ h : cellAt s.mem s.pc ≠ some 99, s.isFinished = false := fun h => by
    simp only [State.isFinished, (State.offEnd_eq_false s).mpr hp, Bool.false_or, decide_eq_false_iff_not]; exact h
  rw [step_running hs hp]
  cases hf : fetch s with
  | error k => exact .inr (.inr (.inl ⟨hs, hfin (fetch_error_not_halt hf), k, rfl⟩))
  | ok i =>
    rcases exec_cases i s with ⟨k, hk⟩ | ⟨c, r, hc, hv, he, hr⟩ | ⟨rfl, he⟩
    · refine .inr (.inr (.inl ⟨hs, hfin ?_, k, hk⟩))
      cases i with
      | add a b c => exact (fetch_operands hf rfl).2.2
      | mul a b c => exact (fetch_operands hf rfl).2.2
      | halt => cases hk
    · obtain ⟨h3, hlt, hne⟩ := fetch_operands hf hc
      exact .inr (.inr (.inr ⟨hs, hfin hne, hlt, c, r, h3, hv, he, hr⟩))
    · exact .inr (.inl ⟨hs, by simp [State.isFinished, fetch_halt hf], he⟩)

end Machine
end Sys2Proof
end

