-- ==== Sys2Proof/Laws/Run.lean ====
section
/-! SUPPORT. How a run goes on from one step, and the induction over its steps, once. -/

namespace Sys2Proof.Machine

/-- One more step of the host's run. -/
theorem core_run_succ {s t : State} (k : Nat) (h : step s = .next t) :
    Host.Core.run core (k + 1) s = Host.Core.run core k t := by
  have h' : core.step s = .next t := h
  simp only [Host.Core.run, h']

theorem runFor_terminal {s : State} (n : Nat) (hs : s.status ≠ .running) : runFor n s = .next s := by
  cases n with
  | zero => rfl
  | succ n => simp [runFor, (State.isTerminal_eq_true s).mpr hs]

theorem runFor_succ {s t : State} (n : Nat) (hs : s.status = .running) (h : step s = .next t) :
    runFor (n + 1) s = runFor n t := by
  simp [runFor, (State.isTerminal_eq_false s).mpr hs, h]

theorem sourceLoopFor_succ {s t : State} (n : Nat) (hf : s.isFinished = false) (hs : s.status ≠ .faulted)
    (h : step s = .next t) : sourceLoopFor (n + 1) s = sourceLoopFor n t := by
  simp [sourceLoopFor, hf, hs, h]

theorem sourceLoopFor_stops {s : State} (n : Nat) (h : s.isFinished = true ∨ s.status = .faulted) :
    sourceLoopFor n s = .next s := by
  cases n with
  | zero => rfl
  | succ n => rcases h with h | h <;> simp [sourceLoopFor, h]

/-- A transaction's reply belongs to the next state of its outcome. -/
theorem withReply_eq_next {o : Host.Outcome State Fault Refusal} {f : State → Reply} {t : State} {r : Reply}
    (h : withReply o f = .next (t, r)) : o = .next t ∧ r = f t := by
  cases o <;> simp [withReply] at h
  exact ⟨by rw [h.1], by rw [← h.2, h.1]⟩

end Sys2Proof.Machine
end

