-- ==== Sys2Proof/Tests/Slice0.lean ====
section
/-! SUPPORT. The model's own tests, with expected results from the worked examples of 95_test_vectors.md or from the rules by hand, and a witness
for the hypotheses of each statement. -/

namespace Sys2Proof.Tests
open Sys2Proof.Machine

/-- An instance with `W = inf` just after `Reset(img)`. -/
def at0 (img : List Cell) : State := State.load ⟨.unbounded, .fault, 100⟩ img

/-- An instance with `W = 8` and the given `OVF` just after `Reset(img)`. -/
def at8 (o : Ovf) (img : List Cell) : State := State.load ⟨.bits 8, o, 100⟩ img

/-! ### Well-formedness: an ill-formed term for each check -/

theorem test_wf_refuses_narrow_width : Params.wf ⟨.bits 7, .fault, 1⟩ = false := by decide
theorem test_wf_refuses_long_memory : Params.wf ⟨.bits 8, .fault, 129⟩ = false := by decide
theorem test_wf_accepts_bounds : Params.wf ⟨.bits 8, .wrap, 128⟩ = true := by decide
theorem test_wf_refuses_operand_a : (Instr.add 128 0 0).wf (.bits 8) = false := by decide
theorem test_wf_refuses_operand_b : (Instr.mul 0 (-129) 0).wf (.bits 8) = false := by decide
theorem test_wf_refuses_operand_c : (Instr.add 0 0 128).wf (.bits 8) = false := by decide
theorem test_wf_accepts_extremes : (Instr.add (-128) 127 0).wf (.bits 8) = true := by decide
theorem test_wf_refuses_wide_cell : Memory.wf ⟨.bits 8, .fault, 4⟩ [128] = false := by decide
theorem test_wf_refuses_long_image : Memory.wf ⟨.bits 8, .fault, 4⟩ [0, 0, 0, 0, 0] = false := by decide

/-! ### Decoding: cells written out from 30_encoding.md sections 1 and 3 -/

theorem test_decode_add : decode [1, 9, 10, 3] = .ok (.add 9 10 3, []) := by decide
theorem test_decode_mul : decode [2, 3, 11, 0, 99] = .ok (.mul 3 11 0, [99]) := by decide
theorem test_decode_halt : decode [99, 1, 2, 3] = .ok (.halt, [1, 2, 3]) := by decide
theorem test_decode_mode_digits : decode [1001, 0, 0, 0] = .error .unknownOpcode := by decide
theorem test_decode_short_unknown : decode [5, 0] = .error .unknownOpcode := by decide
theorem test_decode_truncated : decode [1, 0, 0] = .error .truncated := by decide
theorem test_encode_mul : encode (.mul 4 4 5) = [2, 4, 4, 5] := by decide
/-- Bytes 01, 09, 0a, 03, the first lowest. -/
theorem test_table_word_add : decodeTableWord 32 0x030a0901 = some (.add 9 10 3) := by decide
theorem test_table_word_mul : decodeTableWord 8 2 = some (.mul 0 0 0) := by decide
theorem test_table_word_halt : decodeTableWord 8 0x63 = some .halt := by decide
theorem test_table_word_refused : decodeTableWord 8 3 = none := by decide

/-! ### One step of each instruction -/

/-- Vector A6: ADD over its own operand cell. -/
theorem test_add_own_operand_cell :
    step (at0 [1, 5, 6, 1, 99, 10, 20]) = .next { at0 [1, 30, 6, 1, 99, 10, 20] with pc := 4 } := rfl
/-- Vector A13 under `OVF = wrap`: 127 + 1. -/
theorem test_add_wraps :
    step (at8 .wrap [1, 5, 6, 0, 99, 127, 1]) = .next { at8 .wrap [-128, 5, 6, 0, 99, 127, 1] with pc := 4 } := rfl
/-- Vector M5: all three operands one cell. -/
theorem test_mul_square_in_place :
    step (at0 [2, 5, 5, 5, 99, 9]) = .next { at0 [2, 5, 5, 5, 99, 81] with pc := 4 } := rfl
/-- Vector M7 under `OVF = fault`: -128 * -1. -/
theorem test_mul_overflow_faults :
    step (at8 .fault [2, 5, 6, 0, 99, -128, -1]) =
      .next { at8 .fault [2, 5, 6, 0, 99, -128, -1] with status := .faulted, faultKind := some .arithOverflow } := rfl
/-- Vector V3: the one-cell program. -/
theorem test_halt_alone : step (at0 [99]) = .next { at0 [99] with status := .halted } := rfl

/-! ### The machine around them -/

/-- Vector F1: the empty memory halts. -/
theorem test_empty_memory_halts : step (at0 []) = .next { at0 [] with status := .halted } := rfl
/-- Vector A11 under `OVF = fault`: overflow before the destination. -/
theorem test_overflow_before_destination :
    step (at8 .fault [1, 5, 5, 9, 99, 100]) =
      .next { at8 .fault [1, 5, 5, 9, 99, 100] with status := .faulted, faultKind := some .arithOverflow } := rfl
/-- Vector A8: a negative address. -/
theorem test_negative_address :
    step (at0 [1, -1, 0, 0, 99]) =
      .next { at0 [1, -1, 0, 0, 99] with status := .faulted, faultKind := some .outOfBounds } := rfl
/-- Vector V5. -/
theorem test_run_self_modifying :
    run (at0 [1, 1, 1, 4, 99, 5, 6, 0, 99]) = .next { at0 [30, 1, 1, 4, 2, 5, 6, 0, 99] with pc := 8, status := .halted } := rfl
/-- Vector T4. -/
theorem test_peek_out_of_bounds : peek (at0 [2, 4, 4, 5, 99, 9801]) 6 = .error .outOfBounds := by decide
/-- Vector S1. -/
theorem test_evaluate_direct : evaluateDirect ⟨.unbounded, .fault, 100⟩ [1, 0, 0, 0, 99, 7, 11] 5 6 = .ok 18 := by decide
/-- Vector S7 on the part of its range that decides it. -/
theorem test_search_finds :
    search ⟨.unbounded, .fault, 100⟩ [1, 0, 0, 0, 99, 3, 5, 7, 11, 13, 17, 19, 1000] 1002 [11, 12] (rangeInclusive 0 4) = some (12, 2) := by
  decide
theorem test_reset_refuses : resetWith [128] (at8 .fault []) = .refused .imageRefused := rfl
theorem test_withFetchWord_runs : step (State.reset.withFetchWord 8 1) = exec (.add 0 0 0) (State.reset.withFetchWord 8 1) := rfl
/-- Program P1 of 95_test_vectors.md section 7. -/
theorem test_assemble_p1 :
    assemble [⟨none, .add (.label "x") (.label "y") (.label "t")⟩, ⟨none, .mul (.label "t") (.label "z") (.lit 0)⟩, ⟨none, .halt⟩,
      ⟨some "x", .cell 5⟩, ⟨some "y", .cell 7⟩, ⟨some "t", .cell 0⟩, ⟨some "z", .cell 3⟩] =
      .ok [1, 9, 10, 11, 2, 11, 12, 0, 99, 5, 7, 0, 3] := by decide
theorem test_asm_text : (AsmLine.text ⟨some "x", .add (.lit 1) (.label "y") (.lit (-3))⟩) = "x: ADD 1, y, -3" := by decide

/-! ### Witnesses: the hypotheses of each statement that has any, met together -/

theorem witness_EncodedCellsFitExactlyWhenWellFormed :
    Params.wf ⟨.bits 8, .fault, 128⟩ = true ∧ (Instr.add (-128) 127 0).wf (.bits 8) = true ∧ (Instr.mul 0 0 128).wf (.bits 8) = false := by
  decide
theorem witness_FetchedInstructionIsWellFormed :
    (at8 .fault [1, 127, -128, 0]).MemInv ∧ fetch (at8 .fault [1, 127, -128, 0]) = .ok (.add 127 (-128) 0) := by decide
theorem witness_UnknownOpcodeFaultsAndChangesNothing :
    (at0 [98]).status = .running ∧ cellAt (at0 [98]).mem (at0 [98]).pc = some 98 ∧ (98 : Cell) ≠ 1 ∧ (98 : Cell) ≠ 2 ∧ (98 : Cell) ≠ 99 := by
  decide
theorem witness_TruncatedInstructionIsOutOfBounds_short :
    (at0 [2, 0, 0]).status = .running ∧ cellAt (at0 [2, 0, 0]).mem (at0 [2, 0, 0]).pc = some 2 ∧ (at0 [2, 0, 0]).len ≤ (at0 [2, 0, 0]).pc + 3 := by
  decide
theorem witness_TruncatedInstructionIsOutOfBounds_halt :
    (at0 [99]).status = .running ∧ cellAt (at0 [99]).mem (at0 [99]).pc = some 99 ∧ (at0 [99]).pc + 1 = (at0 [99]).len := by decide
theorem witness_FetchFollowsTheReadOrder : (at0 [1, 0, 0, 0]).pc < (at0 [1, 0, 0, 0]).len := by decide
theorem witness_StepRunsTheDecodedInstruction :
    (at0 [1, 5, 0, 0, 99]).status = .running ∧
      cellsFrom (at0 [1, 5, 0, 0, 99]) (at0 [1, 5, 0, 0, 99]).pc = encode (.add 5 0 0) ++ [99] := by decide
theorem witness_StepInTerminalStateDoesNothing_halted : (at0 [99]).halt.status = .halted := by decide
theorem witness_StepInTerminalStateDoesNothing_faulted : ((at0 [0]).takeFault .unknownOpcode).status = .faulted := by decide
theorem witness_StepOffTheEndHalts : (at0 []).status = .running ∧ (at0 []).len ≤ (at0 []).pc := by decide
theorem witness_RunningStepDoesOneOfThreeThings :
    (∃ t, step (at0 [99]) = .next t ∧ t.status = .halted) ∧ (∃ t, step (at0 [98]) = .next t ∧ t.status = .faulted) ∧
      ∃ t, step (at0 [1, 0, 0, 0]) = .next t ∧ t.status = .running := ⟨⟨_, rfl, rfl⟩, ⟨_, rfl, rfl⟩, ⟨_, rfl, rfl⟩⟩
theorem witness_FaultsArePrecise :
    (at0 [1, 5, 0, 0, 99]).status ≠ .faulted ∧ ∃ t, step (at0 [1, 5, 0, 0, 99]) = .next t ∧ t.status = .faulted :=
  ⟨by decide, _, rfl, rfl⟩
theorem witness_PcAdvancesByFourOrStays :
    (∃ t, step (at0 [2, 0, 0, 0]) = .next t ∧ t.pc = 4) ∧ (∃ t, step (at0 [99]) = .next t ∧ t.pc = 0) ∧
      ∃ t, resetWith [99] { at0 [1, 0, 0, 0] with pc := 4 } = .next t ∧ t.pc = 0 := ⟨⟨_, rfl, rfl⟩, ⟨_, rfl, rfl⟩, ⟨_, rfl, rfl⟩⟩
theorem witness_RunningAfterStepsHasAdvanced :
    ∃ t, Host.Core.run core 2 (at0 [1, 0, 0, 0, 2, 0, 0, 0]) = .next t ∧ t.status = .running := ⟨_, rfl, rfl⟩
/-- The greatest 8-bit sum, with `c = a`. -/
theorem witness_AddStoresTheExactSum :
    memRead (at8 .fault [1, 4, 5, 4, 126, 1]) 4 = .ok 126 ∧ memRead (at8 .fault [1, 4, 5, 4, 126, 1]) 5 = .ok 1 ∧
      validAddr (at8 .fault [1, 4, 5, 4, 126, 1]) 4 = true ∧ fitsW (.bits 8) (126 + 1) = true ∧
      cellsFrom (at8 .fault [1, 4, 5, 4, 126, 1]) 0 = 1 :: 4 :: 5 :: 4 :: [126, 1] := by decide
/-- The least 8-bit product. -/
theorem witness_MulStoresTheExactProduct :
    memRead (at8 .fault [2, 4, 5, 0, -128, 1]) 4 = .ok (-128) ∧ memRead (at8 .fault [2, 4, 5, 0, -128, 1]) 5 = .ok 1 ∧
      validAddr (at8 .fault [2, 4, 5, 0, -128, 1]) 0 = true ∧ fitsW (.bits 8) (-128 * 1) = true ∧
      cellsFrom (at8 .fault [2, 4, 5, 0, -128, 1]) 0 = 2 :: 4 :: 5 :: 0 :: [-128, 1] := by decide
theorem witness_OverflowFaultsUnderFaultMode :
    memRead (at8 .fault [127, 2]) 0 = .ok 127 ∧ memRead (at8 .fault [127, 2]) 1 = .ok 2 ∧ (at8 .fault [127, 2]).params.ovf = .fault ∧
      fitsW (.bits 8) (127 + 2) = false ∧ fitsW (.bits 8) (127 * 2) = false := by decide
theorem witness_OverflowWrapsUnderWrapMode :
    memRead (at8 .wrap [-128, -1]) 0 = .ok (-128) ∧ memRead (at8 .wrap [-128, -1]) 1 = .ok (-1) ∧ validAddr (at8 .wrap [-128, -1]) 1 = true ∧
      (at8 .wrap [-128, -1]).params.ovf = .wrap ∧ fitsW (.bits 8) (-128 + -1) = false ∧ fitsW (.bits 8) (-128 * -1) = false := by decide
theorem witness_WrapIsTheUniqueRepresentative : 1 ≤ 8 ∧ fitsW (.bits 8) (-128) = true ∧ ((-128 : Int) - 128) % 2 ^ 8 = 0 := by decide
theorem witness_ArithmeticFaultsComeInOrder_a : validAddr (at0 [1, 5, 0, 0, 99]) 5 = false := by decide
theorem witness_ArithmeticFaultsComeInOrder_b :
    validAddr (at0 [1, 0, -1, 0, 99]) 0 = true ∧ validAddr (at0 [1, 0, -1, 0, 99]) (-1) = false := by decide
theorem witness_ArithmeticFaultsComeInOrder_c :
    memRead (at8 .fault [100, 1]) 0 = .ok 100 ∧ memRead (at8 .fault [100, 1]) 1 = .ok 1 ∧ validAddr (at8 .fault [100, 1]) 2 = false := by decide
theorem witness_ArithmeticFrame :
    (∃ t, exec (.add 0 0 3) (at0 [1, 0, 0, 3]) = .next t ∧ t.pc = 4) ∧ ∃ t, exec (.mul 0 0 4) (at0 [1, 0, 0, 3]) = .next t ∧ t.pc = 0 :=
  ⟨⟨_, rfl, rfl⟩, ⟨_, rfl, rfl⟩⟩
theorem witness_OperandsAreReadBeforeTheWrite_source :
    memRead (at0 [1, 4, 5, 4, 7, 8]) 4 = .ok 7 ∧ memRead (at0 [1, 4, 5, 4, 7, 8]) 5 = .ok 8 ∧ validAddr (at0 [1, 4, 5, 4, 7, 8]) 4 = true ∧
      cellsFrom (at0 [1, 4, 5, 4, 7, 8]) 0 = 1 :: 4 :: 5 :: 4 :: [7, 8] ∧ narrow (at0 []).params (7 + 8) = some 15 := by decide
theorem witness_OperandsAreReadBeforeTheWrite_ownCell :
    memRead (at8 .wrap [2, 4, 5, 3, 16, 16]) 4 = .ok 16 ∧ memRead (at8 .wrap [2, 4, 5, 3, 16, 16]) 5 = .ok 16 ∧
      validAddr (at8 .wrap [2, 4, 5, 3, 16, 16]) 3 = true ∧ cellsFrom (at8 .wrap [2, 4, 5, 3, 16, 16]) 0 = 2 :: 4 :: 5 :: 3 :: [16, 16] ∧
      narrow (at8 .wrap []).params (16 * 16) = some 0 := by decide
/-- The destination is the second source. -/
theorem witness_OperandsAreReadBeforeTheWrite_secondSource :
    memRead (at0 [2, 4, 5, 5, 7, 8]) 4 = .ok 7 ∧ memRead (at0 [2, 4, 5, 5, 7, 8]) 5 = .ok 8 ∧ validAddr (at0 [2, 4, 5, 5, 7, 8]) 5 = true ∧
      cellsFrom (at0 [2, 4, 5, 5, 7, 8]) 0 = 2 :: 4 :: 5 :: 5 :: [7, 8] ∧ narrow (at0 []).params (7 * 8) = some 56 := by decide
/-- The destination is the instruction's own opcode cell, `c = pc`. -/
theorem witness_OperandsAreReadBeforeTheWrite_opcodeCell :
    memRead (at0 [1, 4, 5, 0, 7, 8]) 4 = .ok 7 ∧ memRead (at0 [1, 4, 5, 0, 7, 8]) 5 = .ok 8 ∧ validAddr (at0 [1, 4, 5, 0, 7, 8]) 0 = true ∧
      ((at0 [1, 4, 5, 0, 7, 8]).pc : Int) ≤ 0 ∧ cellsFrom (at0 [1, 4, 5, 0, 7, 8]) 0 = 1 :: 4 :: 5 :: 0 :: [7, 8] ∧
      narrow (at0 []).params (7 + 8) = some 15 := by decide
/-- Vector V5: the store of 2 at `pc + 4`, with the operand cells of the MUL after it. -/
theorem witness_StoreIsSeenByTheNextFetch :
    memRead (at0 [1, 1, 1, 4, 99, 5, 6, 0, 99]) 1 = .ok 1 ∧ 4 < (at0 [1, 1, 1, 4, 99, 5, 6, 0, 99]).len ∧
      cellsFrom (at0 [1, 1, 1, 4, 99, 5, 6, 0, 99]) 0 = 1 :: 1 :: 1 :: ((4 : Nat) : Int) :: [99, 5, 6, 0, 99] ∧
      narrow (at0 []).params (1 + 1) = some 2 ∧ cellsFrom (at0 [1, 1, 1, 4, 99, 5, 6, 0, 99]) (4 + 1) = 5 :: 6 :: 0 :: [99] ∧
      ∃ t, step (at0 [1, 1, 1, 4, 99, 5, 6, 0, 99]) = .next t := ⟨by decide, by decide, by decide, by decide, by decide, _, rfl⟩
/-- Vector H2: the store of 99 at `pc + 4`. -/
theorem witness_StoreIsSeenByTheNextFetch_halt :
    memRead (at0 [1, 5, 6, 4, 0, 90, 9]) 5 = .ok 90 ∧ memRead (at0 [1, 5, 6, 4, 0, 90, 9]) 6 = .ok 9 ∧
      cellsFrom (at0 [1, 5, 6, 4, 0, 90, 9]) 0 = 1 :: 5 :: 6 :: ((4 : Nat) : Int) :: [0, 90, 9] ∧ narrow (at0 []).params (90 + 9) = some 99 := by
  decide
/-- A store of 4, no opcode, at `pc + 4`, in the last cell of memory. -/
theorem witness_StoreIsSeenByTheNextFetch_unknown :
    memRead (at0 [1, 2, 2, 4, 7]) 2 = .ok 2 ∧ 4 < (at0 [1, 2, 2, 4, 7]).len ∧
      cellsFrom (at0 [1, 2, 2, 4, 7]) 0 = 1 :: 2 :: 2 :: ((4 : Nat) : Int) :: [7] ∧ narrow (at0 []).params (2 + 2) = some 4 := by decide
/-- A store of 1 at `pc + 4`, with the operand cells of the ADD it makes. -/
theorem witness_StoreIsSeenByTheNextFetch_add :
    memRead (at0 [1, 8, 9, 4, 99, 0, 0, 0, 1, 0]) 8 = .ok 1 ∧ memRead (at0 [1, 8, 9, 4, 99, 0, 0, 0, 1, 0]) 9 = .ok 0 ∧
      cellsFrom (at0 [1, 8, 9, 4, 99, 0, 0, 0, 1, 0]) 0 = 1 :: 8 :: 9 :: ((4 : Nat) : Int) :: [99, 0, 0, 0, 1, 0] ∧
      narrow (at0 []).params (1 + 0) = some 1 ∧ cellsFrom (at0 [1, 8, 9, 4, 99, 0, 0, 0, 1, 0]) (4 + 1) = 0 :: 0 :: 0 :: [1, 0] := by decide
/-- An image whose first ADD stores `3 + 0` at `c`, before a MUL. -/
def storesAt (c : Nat) : State := at0 [1, 8, 9, c, 2, 0, 0, 0, 3, 0]
theorem witness_StoreIsSeenByTheNextFetch_operands :
    ∀ c ∈ [5, 6, 7, 8], memRead (storesAt c) 8 = .ok 3 ∧ memRead (storesAt c) 9 = .ok 0 ∧ c < (storesAt c).len ∧
      cellsFrom (storesAt c) 0 = 1 :: 8 :: 9 :: (c : Int) :: [2, 0, 0, 0, 3, 0] ∧ narrow (storesAt c).params (3 + 0) = some 3 ∧
      cellsFrom (storesAt c) 4 = 2 :: 0 :: 0 :: 0 :: [3, 0] := by decide
theorem witness_CellsKeepTheirValueUntilStored :
    ∃ u, Host.Core.run core 1 (at0 [1, 0, 0, 0]) = .next u ∧ fetch (at0 [1, 0, 0, 0]) = .ok (.add 0 0 0) ∧
      (Instr.add 0 0 0).operands[2]? ≠ some 3 ∧ memRead u 3 = .ok 0 := ⟨_, rfl, by decide, by decide, rfl⟩
theorem witness_HaltStopsTheRun : (at0 [99, 1]).status = .running ∧ cellAt (at0 [99, 1]).mem (at0 [99, 1]).pc = some 99 := by decide
theorem witness_HaltAndRunningOffTheEndEndAlike_end : (at0 []).status = .running ∧ (at0 []).len ≤ (at0 []).pc := by decide
theorem witness_ReadAnswersExactlyAtValidAddresses :
    memRead (at0 [7, 8]) 0 = .ok 7 ∧ memRead (at0 [7, 8]) 1 = .ok 8 ∧ memRead (at0 [7, 8]) 2 = .error .outOfBounds ∧
      memRead (at0 [7, 8]) (-1) = .error .outOfBounds := by decide
theorem witness_WriteChangesOneCell :
    memWrite (at0 [7, 8]) 1 9 = .ok (at0 [7, 9]) ∧ memWrite (at0 [7, 8]) 2 9 = .error .outOfBounds ∧
      memWrite (at0 [7, 8]) (-1) 9 = .error .outOfBounds := by decide
theorem witness_LengthIsFixedAfterReset : ∃ t r, transact .run (at0 [1, 0, 0, 0]) = .next (t, r) ∧ t.len = 4 := ⟨_, _, rfl, rfl⟩
theorem witness_ValidAddressesFitACell : (at8 .fault [99, 0]).MemInv ∧ validAddr (at8 .fault [99, 0]) 1 = true := by decide
theorem witness_ResetLeavesTheImageAndPcZero : Memory.wf (at8 .fault []).params [-128, 127] = true := by decide
theorem witness_ResetForgetsThePreviousRun : at0 [1] ≠ (at0 [2]).halt ∧ (at0 [1]).params = (at0 [2]).halt.params := by decide
theorem witness_ResetStateHasTheRunInvariant :
    (at8 .wrap [3]).params.wf = true ∧ ∃ t, resetWith [-128, 127] (at8 .wrap [3]) = .next t := ⟨by decide, _, rfl⟩
theorem witness_StepKeepsTheRunInvariant : (at8 .wrap [1, 4, 4, 4, 127]).Inv ∧ ∃ t, step (at8 .wrap [1, 4, 4, 4, 127]) = .next t ∧ t.pc = 4 :=
  ⟨by decide, _, rfl, rfl⟩
theorem witness_TransactionKeepsTheRunInvariant :
    (at8 .wrap [1, 4, 4, 4, 127]).Inv ∧ (∃ t r, transact .run (at8 .wrap [1, 4, 4, 4, 127]) = .next (t, r)) ∧
      ∃ t r, transact (.reset [-128]) (at8 .wrap [1, 4, 4, 4, 127]) = .next (t, r) := ⟨by decide, ⟨_, _, rfl⟩, _, _, rfl⟩

theorem reachable_at0 (img : List Cell) (h : Memory.wf (at0 []).params img = true) : Reachable (at0 img) :=
  .reset (at0 []) _ img rfl (by unfold resetWith; rw [if_pos h]; rfl)

theorem witness_ReachableStatesHaveTheRunInvariant : ∃ t, Reachable t ∧ t.pc = 4 :=
  ⟨_, .transact .step (at0 [1, 0, 0, 0]) _ .done (reachable_at0 _ (by decide)) rfl, rfl⟩
theorem witness_FinishedAndStatusAgree_halted : ∃ t, Reachable t ∧ t.status = .halted :=
  ⟨_, .transact .run (at0 [99]) _ _ (reachable_at0 _ (by decide)) rfl, rfl⟩
theorem witness_FinishedAndStatusAgree_faulted : ∃ t, Reachable t ∧ t.status = .faulted ∧ t.faultKind = some .outOfBounds :=
  ⟨_, .transact .run (at0 [1]) _ _ (reachable_at0 _ (by decide)) rfl, rfl, rfl⟩
theorem witness_FinishedAndStatusAgree_running : Reachable (at0 [99]) ∧ (at0 [99]).status = .running ∧ (at0 [99]).isFinished = true :=
  ⟨reachable_at0 _ (by decide), by decide, by decide⟩
theorem witness_RunIsTheLoopOverSteps : (at0 [99]).status = .running ∧ (at0 [99]).halt.status ≠ .running := by decide
theorem witness_RunEndsNormallyOrInFailure : (at0 [1, 0, 0, 0]).FaultInv := by decide
theorem witness_InspectionChangesNothing : (0 : Int) ≤ 5 ∧ (at0 [2, 4, 4, 5, 99, 9801]).mem[(5 : Int).toNat]? = some 9801 := by decide
theorem witness_ActingTransactionsDoTheirOperation :
    Memory.wf (at8 .fault []).params [-128, 127] = true ∧ Memory.wf (at8 .fault []).params [128] = false := by decide
theorem witness_InstancesAreIndependent : ∃ ss' r, transactAt 1 .step [at0 [99], at0 [1, 0, 0, 0]] = some (.next (ss', r)) := ⟨_, _, rfl⟩
theorem witness_EvaluateDirectRunsTheTrialImage :
    [99].length < 3 ∧ 3 ≤ [1, 0, 0].length ∧ Memory.wf (at8 .fault []).params (trialImage [1, 0, 0] 127 (-128)) = true := by decide
theorem witness_SearchFindsTheFirstMatch :
    search (at0 []).params [1, 0, 0, 0, 99, 7, 11] 18 [5, 6] [5, 6] = some (5, 6) ∧
      search (at0 []).params [1, 0, 0, 0, 99, 7, 11] 1000 [5, 6] [5, 6] = none := by decide
theorem witness_HostModesUseTheSourceLiterals :
    search (at0 []).params [1, 0, 0, 10, 1, 9, 11, 0, 99, 19690720, 0, 0] 19690720 (rangeInclusive 0 99) (rangeInclusive 0 99) = some (0, 0) := by
  decide
theorem witness_HostModesUseTheSourceLiterals_none :
    search (at0 []).params [] 19690720 (rangeInclusive 0 99) (rangeInclusive 0 99) = none := by decide
theorem witness_AssembledLinesStandAtTheirAddresses :
    assemble ([⟨none, .add (.label "x") (.label "x") (.lit 0)⟩] ++ (⟨some "x", .halt⟩ : AsmLine) :: [⟨none, .cell (-1)⟩]) =
      .ok [1, 4, 4, 0, 99, -1] := by decide
theorem witness_PlacedWordIsTheNextInstruction : decodeTableWord 8 99 = some .halt ∧ decodeTableWord 32 0x04030201 = some (.add 2 3 4) := by
  decide

end Sys2Proof.Tests
end

/-! PROOF. Several instances under one host (10_state.md R24). -/

namespace Sys2Proof.Machine

/-- What a transaction on one of several instances can do (10_state.md R24): it is a transaction on the `k`-th state, and puts the
state it leaves in the `k`-th place. -/
theorem transactAt_eq_next_iff {k : Nat} {q : Transaction} {ss ss' : List State} {r : Reply} :
    transactAt k q ss = some (.next (ss', r)) ↔
      ∃ s t, ss[k]? = some s ∧ transact q s = .next (t, r) ∧ ss' = ss.set k t := by
  unfold transactAt
  cases ss[k]? with
  | none => simp
  | some s =>
    cases hq : transact q s with
    | next p =>
      obtain ⟨t, r'⟩ := p
      simp [hq, and_comm, eq_comm]
    | fault e => simp [hq]
    | refused e => simp [hq]

/-- Settles O47: a transaction at `k` is one on the `k`-th state alone (`transactAt_eq_next_iff`), and `List.set` keeps the others. -/
theorem instancesAreIndependent : Obligations.InstancesAreIndependent := by
  unfold Obligations.InstancesAreIndependent
  intro k q ss ss' r h
  obtain ⟨s, t, hs, hq, rfl⟩ := transactAt_eq_next_iff.mp h
  refine ⟨List.length_set, fun j hj => List.getElem?_set_ne hj.symm, fun us hus => ?_⟩
  refine ⟨us.set k t, transactAt_eq_next_iff.mpr ⟨s, t, hus.trans hs, hq, rfl⟩, ?_⟩
  simp [List.getElem?_set_self', hus]

end Sys2Proof.Machine

/-! PROOF. The opcode map and the rejects of the decoder (30_encoding.md R46, R47, R49). -/

namespace Sys2Proof

/-- Classification inverts `Opcode.value` (30_encoding.md R46). -/
theorem Opcode.ofCell?_eq_some_iff {v : Cell} {op : Opcode} : Opcode.ofCell? v = some op ↔ v = op.value := by
  rcases Opcode.ofCell?_cases v with ⟨rfl, ho⟩ | ⟨rfl, ho⟩ | ⟨rfl, ho⟩ | ⟨h1, h2, h99, ho⟩ <;> rw [ho]
  case inr.inr.inr => cases op <;> simp [Opcode.value, h1, h2, h99]
  all_goals cases op <;> simp [Opcode.value]

/-- The cell values that are no opcode (30_encoding.md R47). -/
theorem Opcode.ofCell?_eq_none_iff {v : Cell} : Opcode.ofCell? v = none ↔ v ≠ 1 ∧ v ≠ 2 ∧ v ≠ 99 := by
  rcases Opcode.ofCell?_cases v with ⟨rfl, ho⟩ | ⟨rfl, ho⟩ | ⟨rfl, ho⟩ | ⟨h1, h2, h99, ho⟩ <;> simp_all

theorem encode_eq_cons (i : Instr) : encode i = i.opcode.value :: i.operands := by
  cases i with
  | add a b c => exact Laws.EncodingShape.add a b c
  | mul a b c => exact Laws.EncodingShape.mul a b c
  | halt => exact Laws.EncodingShape.halt

theorem encode_length (i : Instr) : (encode i).length = i.opcode.lengthInCells := by cases i <;> rfl

/-- Settles O2: the classification is `Opcode.ofCell?_eq_some_iff`, and an encoding begins with its opcode's value by `encode_eq_cons`. -/
theorem opcodeMapHasThreeEntries : Obligations.OpcodeMapHasThreeEntries := by
  unfold Obligations.OpcodeMapHasThreeEntries
  refine ⟨fun v op => Opcode.ofCell?_eq_some_iff, rfl, rfl, rfl, rfl, rfl, rfl, fun i => ⟨?_, encode_length i⟩⟩
  rw [encode_eq_cons, List.head?_cons]

/-- With an opcode in the first cell the decoder answers an instruction or `truncated`: it depends on the cells after it. -/
theorem decode_ne_unknownOpcode {v : Cell} {op : Opcode} (rest : List Cell) (h : Opcode.ofCell? v = some op) :
    decode (v :: rest) ≠ .error .unknownOpcode := by
  cases op <;> simp only [decode, h]
  case halt => simp
  all_goals split <;> simp

/-- The opcode cell alone decides whether the opcode is unknown (30_encoding.md R47). -/
theorem decode_eq_unknownOpcode_iff {v : Cell} {rest : List Cell} :
    decode (v :: rest) = .error .unknownOpcode ↔ v ≠ 1 ∧ v ≠ 2 ∧ v ≠ 99 := by
  rw [← Opcode.ofCell?_eq_none_iff]
  cases ho : Opcode.ofCell? v with
  | none => simp [decode, ho]
  | some op => simpa using decode_ne_unknownOpcode rest ho

/-- An ADD or MUL with fewer than three cells after its opcode cell is truncated (30_encoding.md R49). -/
theorem decode_truncated {v : Cell} {rest : List Cell} (hv : v = 1 ∨ v = 2) (h : rest.length < 3) :
    decode (v :: rest) = .error .truncated := by
  match rest, h with
  | [], _ | [_], _ | [_, _], _ => rcases hv with rfl | rfl <;> rfl
  | _ :: _ :: _ :: _, h => simp only [List.length_cons] at h; omega

end Sys2Proof

/-! PROOF. A step where no whole ADD or MUL stands at `pc`: an unknown opcode, a truncated instruction, a HALT (30_encoding.md R47, R49;
42_control.md R79). -/

namespace Sys2Proof.Machine

theorem pc_lt_len_of_cellAt {s : State} {v : Cell} (h : cellAt s.mem s.pc = some v) : s.pc < s.len :=
  (List.getElem?_eq_some_iff.mp h).1

theorem cellsFrom_length (s : State) (a : Nat) : (cellsFrom s a).length = s.len - a := List.length_drop

theorem fetch_of_decode_error {s : State} {e : DecodeReject} (h : decode (cellsFrom s s.pc) = .error e) :
    fetch s = .error (faultOfReject e) := by simp only [fetch, h]

theorem fetch_unknownOpcode {s : State} {v : Cell} (hc : cellAt s.mem s.pc = some v) (hv : v ≠ 1 ∧ v ≠ 2 ∧ v ≠ 99) :
    fetch s = .error .unknownOpcode :=
  fetch_of_decode_error (by rw [cellsFrom_eq_cons hc]; exact decode_eq_unknownOpcode_iff.mpr hv)

theorem fetch_truncated {s : State} {v : Cell} (hc : cellAt s.mem s.pc = some v) (hv : v = 1 ∨ v = 2)
    (hp : s.len ≤ s.pc + 3) : fetch s = .error .outOfBounds := by
  have hshort : (cellsFrom s (s.pc + 1)).length < 3 := by rw [cellsFrom_length]; omega
  exact fetch_of_decode_error (by rw [cellsFrom_eq_cons hc]; exact decode_truncated hv hshort)

/-- The converse of `fetch_halt`. -/
theorem fetch_of_halt_cell {s : State} (hc : cellAt s.mem s.pc = some 99) : fetch s = .ok .halt := by
  unfold fetch
  rw [cellsFrom_eq_cons hc]
  rfl

/-- A running step whose fetch fails takes the fault transition (60_exceptions.md R83). -/
theorem step_of_fetch_error {s : State} {v : Cell} {k : FaultKind} (hs : s.status = .running)
    (hc : cellAt s.mem s.pc = some v) (hf : fetch s = .error k) : step s = .next (s.takeFault k) := by
  rw [step_running hs (pc_lt_len_of_cellAt hc), hf]

/-- A running step at a cell that holds 99 halts, wherever the cell stands (42_control.md R79). -/
theorem step_at_halt_cell {s : State} (hs : s.status = .running) (hc : cellAt s.mem s.pc = some 99) :
    step s = .next s.halt := by
  rw [step_running hs (pc_lt_len_of_cellAt hc), fetch_of_halt_cell hc]
  rfl

theorem faultsWith_takeFault (s : State) (k : FaultKind) : FaultsWith (.next (s.takeFault k)) s k :=
  ⟨_, rfl, rfl, rfl, rfl, rfl, rfl⟩

theorem haltsUnchanged_halt (s : State) : HaltsUnchanged (.next s.halt) s := ⟨_, rfl, rfl, rfl, rfl, rfl, rfl⟩

/-- Settles O6: the opcode cell alone decides the reject (`decode_eq_unknownOpcode_iff`), and the fetch that fails with it takes the fault
transition. -/
theorem unknownOpcodeFaultsAndChangesNothing : Obligations.UnknownOpcodeFaultsAndChangesNothing := by
  unfold Obligations.UnknownOpcodeFaultsAndChangesNothing
  refine ⟨fun v rest => decode_eq_unknownOpcode_iff, fun s v hs hc h1 h2 h99 => ?_⟩
  rw [step_of_fetch_error hs hc (fetch_unknownOpcode hc ⟨h1, h2, h99⟩)]
  exact faultsWith_takeFault s .unknownOpcode

/-- Settles O7: fewer than three cells after the opcode cell make the fetch fail (`fetch_truncated`), and a HALT needs none of them
(`step_at_halt_cell`). -/
theorem truncatedInstructionIsOutOfBounds : Obligations.TruncatedInstructionIsOutOfBounds := by
  unfold Obligations.TruncatedInstructionIsOutOfBounds
  refine ⟨fun s v hs hc hv hp => ?_, fun s hs hc _ => ?_⟩
  · exact ⟨_, step_of_fetch_error hs hc (fetch_truncated hc hv hp), rfl, rfl⟩
  · rw [step_at_halt_cell hs hc]
    exact haltsUnchanged_halt s

end Sys2Proof.Machine

/-! PROOF. What `IsFinished()` answers (40_step.md R62). -/

namespace Sys2Proof.Machine

/-- When a run is finished, in the terms of the spec: `pc` is off the end, or reading its cell gives HALT's opcode. -/
theorem State.isFinished_eq_true_iff (s : State) :
    s.isFinished = true ↔ s.len ≤ s.pc ∨ memRead s s.pc = .ok 99 := by
  rw [memRead_eq_ok_iff, ← State.offEnd_eq_true, State.isFinished, Bool.or_eq_true, decide_eq_true_iff]

theorem transact_isFinished (s : State) : transact .isFinished s = .next (s, .finished s.isFinished) := rfl

/-- Settles O39: the answer is `State.isFinished_eq_true_iff`, which asks nothing of `status`, and the transaction returns its own
state. -/
theorem finishedExactlyAtHaltOrEnd : Obligations.FinishedExactlyAtHaltOrEnd := by
  unfold Obligations.FinishedExactlyAtHaltOrEnd
  exact fun s => ⟨s.isFinished_eq_true_iff, transact_isFinished s⟩

end Sys2Proof.Machine

/-! PROOF. ADD and MUL where nothing faults (41_arithmetic.md R72, R75): what a successful one leaves, and the step that fetches it. -/

namespace Sys2Proof

/-- The decoder reads an instruction's own cells back and leaves the cells after them (30_encoding.md R42, R46). -/
theorem decode_encode_append (i : Instr) (rest : List Cell) : decode (encode i ++ rest) = .ok (i, rest) := by
  cases i <;> rfl

namespace Machine

theorem fetch_of_cells {s : State} {i : Instr} {rest : List Cell} (h : cellsFrom s s.pc = encode i ++ rest) :
    fetch s = .ok i := by simp only [fetch, h, decode_encode_append]

theorem pc_lt_len_of_cells {s : State} {i : Instr} {rest : List Cell} (h : cellsFrom s s.pc = encode i ++ rest) :
    s.pc < s.len := by
  rw [encode_eq_cons, List.cons_append] at h
  exact pc_lt_len_of_cellAt (cellAt_of_cellsFrom h).1

/-- A running step that finds the cells of an instruction at `pc` is its execution (40_step.md R56). -/
theorem step_of_cells {s : State} {i : Instr} {rest : List Cell} (hs : s.status = .running)
    (h : cellsFrom s s.pc = encode i ++ rest) : step s = exec i s := by
  rw [step_running hs (pc_lt_len_of_cells h), fetch_of_cells h]

theorem narrow_of_fits {p : Params} {r : Int} (h : fitsW p.width r = true) : narrow p r = some r := by
  simp only [narrow, h, if_true]

/-- The advance of `pc` is invisible to a read, so `State.stored` reads as the write it makes. -/
theorem memRead_stored (s : State) (c r : Cell) (x : Int) :
    memRead (s.stored c r) x = memRead (s.setMem (s.mem.set c.toNat r)) x := memRead_congr rfl x

theorem storesAndAdvances_stored {s : State} {c : Cell} (r : Cell) (hc : validAddr s c = true) :
    StoresAndAdvances (.next (s.stored c r)) s c r := by
  refine ⟨_, rfl, ?_, fun x hx => ?_, s.stored_len c r, rfl, rfl, rfl, rfl⟩
  · rw [memRead_stored, memRead_set_same hc]
  · rw [memRead_stored, memRead_set_other hc hx]

/-- ADD and MUL at once, for either way `narrow` leaves a value to store (41_arithmetic.md R71, R74, R76): `x` and `y` are the cells
before the write, with no premise that `c` differs from `a` and `b`. -/
theorem binary_storesAndAdvances {f : Int → Int → Int} {a b c x y r : Cell} {s : State} (ha : memRead s a = .ok x)
    (hb : memRead s b = .ok y) (hn : narrow s.params (f x y) = some r) (hc : validAddr s c = true) :
    StoresAndAdvances (binary f a b c s) s c r := by
  rw [binary_stores ha hb hn hc]
  exact storesAndAdvances_stored r hc

/-- Settles O17: `binary_storesAndAdvances` with the sum, which fits and so is not narrowed; a step that finds the ADD's cells is its
execution (`step_of_cells`). -/
theorem addStoresTheExactSum : Obligations.AddStoresTheExactSum := by
  unfold Obligations.AddStoresTheExactSum
  intro s a b c x y ha hb hc hfit
  have hexec : StoresAndAdvances (exec (.add a b c) s) s c (x + y) :=
    binary_storesAndAdvances ha hb (narrow_of_fits hfit) hc
  exact ⟨hexec, fun rest hs hcells => step_of_cells (i := .add a b c) hs hcells ▸ hexec⟩

/-- Settles O18: `binary_storesAndAdvances` with the product, and `step_of_cells` for the step. -/
theorem mulStoresTheExactProduct : Obligations.MulStoresTheExactProduct := by
  unfold Obligations.MulStoresTheExactProduct
  intro s a b c x y ha hb hc hfit
  have hexec : StoresAndAdvances (exec (.mul a b c) s) s c (x * y) :=
    binary_storesAndAdvances ha hb (narrow_of_fits hfit) hc
  exact ⟨hexec, fun rest hs hcells => step_of_cells (i := .mul a b c) hs hcells ▸ hexec⟩

end Machine
end Sys2Proof

/-! PROOF. HALT (42_control.md R79). -/

namespace Sys2Proof.Machine

/-- HALT is the normal stop, and it looks at no cell (42_control.md R79). -/
theorem exec_halt (s : State) : exec .halt s = .next s.halt := rfl

/-- A step after a normal stop does nothing (40_step.md R58). -/
theorem step_halt (s : State) : step s.halt = .next s.halt := step_terminal (by simp)

/-- A run that stops on a HALT stays finished, for `pc` stays on it (42_control.md R79). -/
theorem State.halt_isFinished {s : State} (hc : cellAt s.mem s.pc = some 99) : s.halt.isFinished = true :=
  s.halt.isFinished_eq_true_iff.mpr (.inr (memRead_eq_ok_iff.mpr hc))

/-- Settles O27: both the instruction (`exec_halt`) and the step at its cell (`step_at_halt_cell`) lead to `s.halt`, which is finished
(`State.halt_isFinished`) and terminal (`step_halt`). -/
theorem haltStopsTheRun : Obligations.HaltStopsTheRun := by
  unfold Obligations.HaltStopsTheRun
  refine ⟨fun s => exec_halt s ▸ haltsUnchanged_halt s, fun s hs hc => ?_⟩
  rw [step_at_halt_cell hs hc]
  refine ⟨haltsUnchanged_halt s, fun t ht => ?_⟩
  obtain rfl : s.halt = t := by simpa using ht
  exact ⟨State.halt_isFinished hc, step_halt s⟩

end Sys2Proof.Machine

/-! PROOF. Decoding and encoding agree, and the fetch reads an instruction off the cells at `pc` (30_encoding.md sections 1 to 4). -/

namespace Sys2Proof

/-- The converse of `decode_encode_append`: what the decoder answers spells the cells it was given. -/
theorem eq_encode_append_of_decode {i : Instr} {rest cs : List Cell} (h : decode cs = .ok (i, rest)) : cs = encode i ++ rest := by
  cases cs with
  | nil => cases h
  | cons v l =>
    rcases Opcode.ofCell?_cases v with ⟨rfl, ho⟩ | ⟨rfl, ho⟩ | ⟨rfl, ho⟩ | ⟨-, -, -, ho⟩ <;> simp only [decode, ho] at h
    case inr.inr.inl => cases h; rfl
    case inr.inr.inr => cases h
    all_goals
      split at h <;> cases h
      rfl

theorem decode_eq_ok_iff {i : Instr} {rest cs : List Cell} : decode cs = .ok (i, rest) ↔ cs = encode i ++ rest :=
  ⟨eq_encode_append_of_decode, fun h => h ▸ decode_encode_append i rest⟩

namespace Machine

theorem fetch_eq_ok_iff {s : State} {i : Instr} : fetch s = .ok i ↔ ∃ rest, cellsFrom s s.pc = encode i ++ rest := by
  refine ⟨fun h => ?_, fun ⟨_, h⟩ => fetch_of_cells h⟩
  cases hd : decode (cellsFrom s s.pc) with
  | error e => rw [fetch_of_decode_error hd] at h; cases h
  | ok p =>
    obtain ⟨j, rest⟩ := p
    have hcells := decode_eq_ok_iff.mp hd
    rw [fetch_of_cells hcells] at h
    cases h
    exact ⟨rest, hcells⟩

/-- Settles O3: the decoder and the encoder invert each other (`decode_eq_ok_iff`), and the fetch decodes the cells at `pc`
(`fetch_eq_ok_iff`). -/
theorem decodeAndEncodeAgree : Obligations.DecodeAndEncodeAgree := by
  unfold Obligations.DecodeAndEncodeAgree
  exact ⟨fun i rest cs => decode_eq_ok_iff, fun s i => fetch_eq_ok_iff⟩

/-- Settles O1: each line is the decoder run on written-out cells. -/
theorem decodesWrittenOutWords : Obligations.DecodesWrittenOutWords := by
  unfold Obligations.DecodesWrittenOutWords
  decide

end Machine
end Sys2Proof

/-! PROOF. Which cells fit a legal width (00_scope.md R7, 10_state.md R15): opcode cells, operands, addresses. -/

namespace Sys2Proof

theorem Params.wf_bits {p : Params} {w : Nat} (hp : p.wf = true) (hw : p.width = .bits w) :
    8 ≤ w ∧ p.maxLen ≤ 2 ^ (w - 1) := by
  simpa [Params.wf, hw] using hp

theorem Instr.wf_iff {w : Width} {i : Instr} : i.wf w = true ↔ ∀ v ∈ i.operands, Machine.fitsW w v = true := by
  simp [Instr.wf]

namespace Machine

/-- A natural number fits a legal width when it is below `2^7`, half of the least width's range, or below `MAXLEN` (00_scope.md R7). -/
theorem fitsW_natCast {p : Params} {n : Nat} (hp : p.wf = true) (hn : n < 128 ∨ n < p.maxLen) : fitsW p.width n = true := by
  cases hw : p.width with
  | unbounded => rfl
  | bits w =>
    obtain ⟨h8, hmax⟩ := Params.wf_bits hp hw
    have h128 : 2 ^ 7 ≤ 2 ^ (w - 1) := Nat.pow_le_pow_right (by omega) (by omega)
    have hlt : n < 2 ^ (w - 1) := by omega
    have hlt' : (n : Int) < 2 ^ (w - 1) := by exact_mod_cast hlt
    simp only [fitsW, decide_eq_true_eq]
    omega

theorem fitsW_opcode {p : Params} (hp : p.wf = true) (op : Opcode) : fitsW p.width op.value = true := by
  cases op with
  | add => exact fitsW_natCast (n := 1) hp (.inl (by decide))
  | mul => exact fitsW_natCast (n := 2) hp (.inl (by decide))
  | halt => exact fitsW_natCast (n := 99) hp (.inl (by decide))

/-- With legal parameters the opcode cell fits, so only the operands are left to fit. -/
theorem wf_iff_encode_fits {p : Params} {i : Instr} (hp : p.wf = true) :
    i.wf p.width = true ↔ ∀ v ∈ encode i, fitsW p.width v = true := by
  rw [Instr.wf_iff, encode_eq_cons, List.forall_mem_cons]
  exact (and_iff_right (fitsW_opcode hp i.opcode)).symm

/-- Settles O4: `wf_iff_encode_fits`. -/
theorem encodedCellsFitExactlyWhenWellFormed : Obligations.EncodedCellsFitExactlyWhenWellFormed := by
  unfold Obligations.EncodedCellsFitExactlyWhenWellFormed
  exact fun p i hp => wf_iff_encode_fits hp

/-- Settles O5: the cells of a fetched instruction stand in memory (`fetch_eq_ok_iff`), where every cell fits. -/
theorem fetchedInstructionIsWellFormed : Obligations.FetchedInstructionIsWellFormed := by
  unfold Obligations.FetchedInstructionIsWellFormed
  rintro s i ⟨hp, hm⟩ hf
  obtain ⟨rest, hcells⟩ := fetch_eq_ok_iff.mp hf
  refine (wf_iff_encode_fits hp).mpr fun v hv => (Memory.wf_iff.mp hm).2 v ?_
  have hmem : v ∈ cellsFrom s s.pc := hcells ▸ List.mem_append_left rest hv
  exact List.mem_of_mem_drop hmem

/-- Settles O32: a valid address is a natural number below `LEN <= MAXLEN`, and `fitsW_natCast` says that such a number fits. -/
theorem validAddressesFitACell : Obligations.ValidAddressesFitACell := by
  unfold Obligations.ValidAddressesFitACell
  rintro s a ⟨hp, hm⟩ ha
  obtain ⟨h0, hlt⟩ := validAddr_iff.mp ha
  obtain ⟨n, rfl⟩ := Int.eq_ofNat_of_zero_le h0
  have hlen : s.len ≤ s.params.maxLen := (Memory.wf_iff.mp hm).1
  exact fitsW_natCast hp (.inr (by omega))

end Machine
end Sys2Proof

/-! PROOF. Reads, writes and the fetch as a chain of reads (20_memory.md section 1, 40_step.md R56). -/

namespace Sys2Proof.Machine

theorem memRead_of_outside {s : State} {a : Int} (h : a < 0 ∨ s.len ≤ a) : memRead s a = .error .outOfBounds := by
  refine memRead_of_not_valid ?_
  rw [Bool.eq_false_iff, Ne, validAddr_iff]
  omega

/-- Settles O29: a valid address has a cell (`memRead_of_valid`), any other has none (`memRead_of_outside`). -/
theorem readAnswersExactlyAtValidAddresses : Obligations.ReadAnswersExactlyAtValidAddresses := by
  unfold Obligations.ReadAnswersExactlyAtValidAddresses
  refine fun s a => ⟨fun h => ?_, memRead_of_outside⟩
  obtain ⟨v, hv⟩ := memRead_of_valid (validAddr_iff.mpr h)
  exact ⟨v, (cellAt_eq_some_iff.mp (memRead_eq_ok_iff.mp hv)).2, hv⟩

/-- Settles O30: the two cases of `memWrite_cases`, the new memory read by `memRead_set_same` and `memRead_set_other`. -/
theorem writeChangesOneCell : Obligations.WriteChangesOneCell := by
  unfold Obligations.WriteChangesOneCell
  intro s a v
  rcases memWrite_cases (s := s) (a := a) (v := v) with ⟨hv, hw⟩ | ⟨hv, hw⟩
  · refine ⟨fun _ => ⟨_, hw, memRead_set_same hv, fun x hx => memRead_set_other hv hx, ?_, rfl, rfl, rfl, rfl⟩, fun h => ?_⟩
    · simp [State.len]
    · rw [validAddr_iff] at hv
      omega
  · refine ⟨fun h => ?_, fun _ => hw⟩
    rw [validAddr_iff.mpr h] at hv
    cases hv

theorem memRead_of_lt_len {s : State} {n : Nat} (h : n < s.len) : ∃ v, memRead s n = .ok v :=
  memRead_of_valid (validAddr_iff.mpr (by omega))

/-- Where a read fails at a natural address, memory has ended before it. -/
theorem len_le_of_memRead_error {s : State} {n : Nat} {k : FaultKind} (h : memRead s n = .error k) : s.len ≤ n := by
  by_contra hn
  obtain ⟨v, hv⟩ := memRead_of_lt_len (Nat.not_le.mp hn)
  rw [hv] at h
  cases h

/-- A read of an operand cell that fails makes the whole fetch fail with the read's fault. -/
theorem fetch_of_operand_error {s : State} {v : Cell} {j : Nat} {k : FaultKind} (hc : cellAt s.mem s.pc = some v)
    (hv : v = 1 ∨ v = 2) (hj : j ≤ 3) (hk : memRead s (s.pc + j : Nat) = .error k) : fetch s = .error k := by
  have hlen := len_le_of_memRead_error hk
  rw [memRead_error_kind hk]
  exact fetch_truncated hc hv (by omega)

/-- Four cells read in a row are the cells from the first address on. -/
theorem cellsFrom_of_reads {s : State} {n : Nat} {v a b c : Cell} (hv : memRead s n = .ok v)
    (ha : memRead s (n + 1 : Nat) = .ok a) (hb : memRead s (n + 2 : Nat) = .ok b) (hc : memRead s (n + 3 : Nat) = .ok c) :
    cellsFrom s n = v :: a :: b :: c :: cellsFrom s (n + 4) := by
  rw [memRead_eq_ok_iff] at hv ha hb hc
  rw [cellsFrom_eq_cons hv, cellsFrom_eq_cons ha, cellsFrom_eq_cons hb, cellsFrom_eq_cons hc]

/-- Settles O8: by the value of the opcode cell; for 1 and 2 by the first operand read that fails (`fetch_of_operand_error`), and where none
does the four reads are the instruction's cells (`cellsFrom_of_reads`). -/
theorem fetchFollowsTheReadOrder : Obligations.FetchFollowsTheReadOrder := by
  unfold Obligations.FetchFollowsTheReadOrder
  intro s hp
  obtain ⟨op, hop⟩ := memRead_of_lt_len hp
  have hcell := memRead_eq_ok_iff.mp hop
  rw [hop]
  by_cases h99 : op = 99
  · subst h99
    rw [fetch_of_halt_cell hcell]
    rfl
  by_cases hop12 : op = 1 ∨ op = 2
  case neg =>
    rw [fetch_unknownOpcode hcell (by tauto)]
    simp [h99, hop12]
  simp only [h99, hop12, if_true, if_false]
  cases ha : memRead s (s.pc + 1) with
  | error k => exact fetch_of_operand_error (j := 1) hcell hop12 (by decide) ha
  | ok a =>
    cases hb : memRead s (s.pc + 2) with
    | error k => exact fetch_of_operand_error (j := 2) hcell hop12 (by decide) hb
    | ok b =>
      cases hc : memRead s (s.pc + 3) with
      | error k => exact fetch_of_operand_error (j := 3) hcell hop12 (by decide) hc
      | ok c =>
        have hcells := cellsFrom_of_reads hop ha hb hc
        rcases hop12 with rfl | rfl
        · exact fetch_of_cells (i := .add a b c) hcells
        · exact fetch_of_cells (i := .mul a b c) hcells

end Sys2Proof.Machine

/-! PROOF. `Reset` (10_state.md section 5, 70_reset_and_hazards.md section 1). -/

namespace Sys2Proof.Machine

/-- Everything an accepted `Reset` is. -/
theorem resetWith_eq_next_iff {s t : State} {img : List Cell} :
    resetWith img s = .next t ↔ Memory.wf s.params img = true ∧ t = State.load s.params img := by
  unfold resetWith
  split
  · next hm => exact ⟨fun h => ⟨hm, (Host.Outcome.next.inj h).symm⟩, fun ⟨_, ht⟩ => ht ▸ rfl⟩
  · next hm => exact ⟨nofun, fun ⟨hw, _⟩ => absurd hw hm⟩

theorem resetWith_eq_refused_iff {s : State} {img : List Cell} :
    resetWith img s = .refused .imageRefused ↔ Memory.wf s.params img = false := by
  unfold resetWith
  split
  · next hm => simp [hm]
  · next hm => simpa using hm

/-- Settles O33: an accepted `Reset` leaves `State.load`. -/
theorem resetLeavesTheImageAndPcZero : Obligations.ResetLeavesTheImageAndPcZero := by
  unfold Obligations.ResetLeavesTheImageAndPcZero
  exact fun s img hm => ⟨_, resetWith_eq_next_iff.mpr ⟨hm, rfl⟩, rfl, fun n => cellAt_natCast img n, rfl, rfl, rfl, rfl⟩

/-- Settles O34: `Reset` looks at the parameters of the state before it and at nothing else. -/
theorem resetForgetsThePreviousRun : Obligations.ResetForgetsThePreviousRun := by
  unfold Obligations.ResetForgetsThePreviousRun
  intro s s' img h
  simp only [resetWith, h]

theorem fitsW_eq_false_iff {w : Width} {v : Int} :
    fitsW w v = false ↔ ∃ n, w = .bits n ∧ ¬(-(2 ^ (n - 1)) ≤ v ∧ v < 2 ^ (n - 1)) := by
  cases w with
  | unbounded => simp [fitsW]
  | bits n => simp only [fitsW, decide_eq_false_iff_not, Width.bits.injEq, exists_eq_left']

/-- When a list of cells is no memory in its form: it is too long or some value does not fit. -/
theorem Memory.wf_eq_false_iff {p : Params} {m : Memory} :
    Memory.wf p m = false ↔ p.maxLen < m.length ∨ ∃ v ∈ m, fitsW p.width v = false := by
  rw [Bool.eq_false_iff, Ne, Memory.wf_iff, not_and_or, Nat.not_le]
  simp only [not_forall, Bool.not_eq_true, exists_prop]

/-- Settles O35: `Reset` is refused exactly when the image is not in its form, which `Memory.wf_eq_false_iff` and `fitsW_eq_false_iff`
write out in the spec's bounds. -/
theorem resetRefusesExactlyBadImages : Obligations.ResetRefusesExactlyBadImages := by
  unfold Obligations.ResetRefusesExactlyBadImages
  intro s img
  simp only [resetWith_eq_refused_iff, Memory.wf_eq_false_iff, fitsW_eq_false_iff]

end Sys2Proof.Machine

/-! PROOF. The step (40_step.md section 1): it always answers a next state, and what that state can be. -/

namespace Sys2Proof.Machine

/-- `step_cases` in terms of the state a step answers. -/
theorem step_next_cases {s t : State} (h : step s = .next t) :
    (s.status ≠ .running ∧ t = s) ∨
    (s.status = .running ∧ s.isFinished = true ∧ t = s.halt) ∨
    (s.status = .running ∧ s.isFinished = false ∧ ∃ k, t = s.takeFault k) ∨
    (s.status = .running ∧ s.pc + 3 < s.len ∧ ∃ c r, cellAt s.mem ((s.pc + 3 : Nat) : Int) = some c ∧
      validAddr s c = true ∧ t = s.stored c r ∧ (s.params.wf = true → fitsW s.params.width r = true)) := by
  rcases step_cases s with ⟨hs, he⟩ | ⟨hs, hf, he⟩ | ⟨hs, hf, k, he⟩ | ⟨hs, -, hp, c, r, hc, hv, he, hr⟩ <;>
    obtain rfl := Host.Outcome.next.inj (h.symm.trans he)
  · exact .inl ⟨hs, rfl⟩
  · exact .inr (.inl ⟨hs, hf, rfl⟩)
  · exact .inr (.inr (.inl ⟨hs, hf, k, rfl⟩))
  · exact .inr (.inr (.inr ⟨hs, hp, c, r, hc, hv, rfl, hr⟩))

theorem exec_answers (i : Instr) (s : State) : ∃ t, exec i s = .next t := by
  rcases exec_cases i s with ⟨k, he⟩ | ⟨c, r, -, -, he, -⟩ | ⟨-, he⟩ <;> exact ⟨_, he⟩

theorem step_answers (s : State) : ∃ t, step s = .next t := by
  rcases step_cases s with ⟨-, he⟩ | ⟨-, -, he⟩ | ⟨-, -, k, he⟩ | ⟨-, -, -, c, r, -, -, he, -⟩ <;> exact ⟨_, he⟩

/-- Settles O12: the outcomes that `exec_cases` and `step_cases` list are all next states. -/
theorem everyStepAnswersANextState : Obligations.EveryStepAnswersANextState := by
  unfold Obligations.EveryStepAnswersANextState
  exact ⟨exec_answers, step_answers⟩

/-- Settles O9: `step_of_cells`. -/
theorem stepRunsTheDecodedInstruction : Obligations.StepRunsTheDecodedInstruction := by
  unfold Obligations.StepRunsTheDecodedInstruction
  exact fun s i rest hs hcells => step_of_cells hs hcells

/-- Settles O10: both statuses are terminal (`step_terminal`). -/
theorem stepInTerminalStateDoesNothing : Obligations.StepInTerminalStateDoesNothing := by
  unfold Obligations.StepInTerminalStateDoesNothing
  rintro s (hs | hs) <;> exact step_terminal (by simp [hs])

/-- Settles O11: such a step is the normal stop (`step_offEnd`). -/
theorem stepOffTheEndHalts : Obligations.StepOffTheEndHalts := by
  unfold Obligations.StepOffTheEndHalts
  exact fun s hs hp => step_offEnd hs hp ▸ haltsUnchanged_halt s

theorem isFinished_halt (s : State) : s.halt.isFinished = s.isFinished := rfl

theorem isFinished_takeFault (s : State) (k : FaultKind) : (s.takeFault k).isFinished = s.isFinished := rfl

/-- A running step of a finished run is the normal stop, at a HALT and off the end alike (42_control.md R80). -/
theorem step_finished {s : State} (hs : s.status = .running) (hf : s.isFinished = true) : step s = .next s.halt := by
  rcases s.isFinished_eq_true_iff.mp hf with hp | h99
  · exact step_offEnd hs hp
  · exact step_at_halt_cell hs (memRead_eq_ok_iff.mp h99)

/-- Where a run is not finished, `pc` is inside memory on a cell that is not 99 (40_step.md R62). -/
theorem State.isFinished_eq_false_iff (s : State) :
    s.isFinished = false ↔ s.pc < s.len ∧ cellAt s.mem s.pc ≠ some 99 := by
  rw [Bool.eq_false_iff, Ne, s.isFinished_eq_true_iff, memRead_eq_ok_iff, not_or, Nat.not_le]

/-- Settles O13: the three cases of a running step in `step_next_cases`. -/
theorem runningStepDoesOneOfThreeThings : Obligations.RunningStepDoesOneOfThreeThings := by
  unfold Obligations.RunningStepDoesOneOfThreeThings
  intro s t hs h
  rcases step_next_cases h with ⟨hn, -⟩ | ⟨-, -, rfl⟩ | ⟨-, -, k, rfl⟩ | ⟨-, -, c, r, hc, hv, rfl, -⟩
  · exact absurd hs hn
  · exact ⟨rfl, rfl, .inl ⟨rfl, rfl, rfl, rfl⟩⟩
  · exact ⟨rfl, rfl, .inr (.inl ⟨rfl, rfl, rfl, k, rfl⟩)⟩
  · refine ⟨rfl, s.stored_len c r, .inr (.inr ⟨hs, rfl, rfl, c, memRead_eq_ok_iff.mpr hc, fun x hx => ?_⟩)⟩
    rw [memRead_stored, memRead_set_other hv hx]

/-- Settles O14: only the fault case of `step_next_cases` ends in `Faulted`, and it arises in a run that is not finished. -/
theorem faultsArePrecise : Obligations.FaultsArePrecise := by
  unfold Obligations.FaultsArePrecise
  intro s t hs h ht
  rcases step_next_cases h with ⟨-, rfl⟩ | ⟨-, -, rfl⟩ | ⟨-, hf, k, rfl⟩ | ⟨-, -, c, r, -, -, rfl, -⟩
  · exact absurd ht hs
  · cases ht
  · exact ⟨rfl, rfl, rfl, ⟨k, rfl⟩, s.isFinished_eq_false_iff.mp hf⟩
  · exact absurd ht hs

/-- Settles O28: both conditions are `IsFinished()`, the step is the normal stop (`step_finished`), and that writes `status` alone. -/
theorem haltAndRunningOffTheEndEndAlike : Obligations.HaltAndRunningOffTheEndEndAlike := by
  unfold Obligations.HaltAndRunningOffTheEndEndAlike
  intro s hs hend
  have hf : s.isFinished = true := by
    rw [s.isFinished_eq_true_iff, memRead_eq_ok_iff]
    exact hend.symm
  rw [step_finished hs hf]
  refine ⟨haltsUnchanged_halt s, fun t ht => ?_⟩
  obtain rfl := Host.Outcome.next.inj ht
  exact ⟨hf, Iff.rfl⟩

end Sys2Proof.Machine

/-! PROOF. How `pc` moves (10_state.md R17, 42_control.md section 2), and which cell a step can have stored to (20_memory.md section 4). -/

namespace Sys2Proof.Machine

/-- A step that leaves the run `Running` fetched an ADD or MUL and stored to its destination. -/
theorem step_goes_on {s t : State} (h : step s = .next t) (ht : t.status = .running) :
    s.status = .running ∧ s.pc + 3 < s.len ∧ ∃ i c r, fetch s = .ok i ∧ i.operands[2]? = some c ∧ validAddr s c = true ∧
      t = s.stored c r := by
  rcases step_next_cases h with ⟨hs, rfl⟩ | ⟨-, -, rfl⟩ | ⟨-, -, k, rfl⟩ | ⟨hs, hp, -⟩
  · exact absurd ht hs
  · cases ht
  · cases ht
  refine ⟨hs, hp, ?_⟩
  rw [step_running hs (by omega)] at h
  cases hf : fetch s with
  | error k => rw [hf] at h; cases h; cases ht
  | ok i =>
    rw [hf] at h
    rcases exec_cases i s with ⟨k, he⟩ | ⟨c, r, hc, hv, he, -⟩ | ⟨-, he⟩ <;>
      obtain rfl := Host.Outcome.next.inj (he.symm.trans h)
    · cases ht
    · exact ⟨i, c, r, rfl, hc, hv, rfl⟩
    · cases ht

/-- What such a step does to `pc` and `LEN`. -/
theorem step_goes_on_pc {s t : State} (h : step s = .next t) (ht : t.status = .running) :
    s.status = .running ∧ t.pc = s.pc + 4 ∧ t.len = s.len ∧ t.pc ≤ t.len := by
  obtain ⟨hs, hp, -, c, r, -, -, -, rfl⟩ := step_goes_on h ht
  refine ⟨hs, rfl, s.stored_len c r, ?_⟩
  rw [State.stored_len, State.stored_pc]
  omega

/-- A step that does not leave the run `Running` changes neither memory nor `pc`. -/
theorem step_ends_unchanged {s t : State} (h : step s = .next t) (ht : t.status ≠ .running) : t.mem = s.mem ∧ t.pc = s.pc := by
  rcases step_next_cases h with ⟨-, rfl⟩ | ⟨-, -, rfl⟩ | ⟨-, -, k, rfl⟩ | ⟨hs, -, c, r, -, -, rfl, -⟩
  · exact ⟨rfl, rfl⟩
  · exact ⟨rfl, rfl⟩
  · exact ⟨rfl, rfl⟩
  · exact absurd hs ht

/-- Settles O15: by whether the step leaves the run `Running` (`step_goes_on`) or not (`step_ends_unchanged`). -/
theorem pcAdvancesByFourOrStays : Obligations.PcAdvancesByFourOrStays := by
  unfold Obligations.PcAdvancesByFourOrStays
  refine ⟨fun s t h => ?_, fun s t img h => ?_⟩
  · by_cases ht : t.status = .running
    · obtain ⟨hs, -, i, c, r, hf, hc, -, rfl⟩ := step_goes_on h ht
      exact .inl ⟨hs, ht, rfl, i, hf, by rintro rfl; cases hc⟩
    · exact .inr ⟨fun hst => ht hst.2, (step_ends_unchanged h ht).2⟩
  · obtain ⟨-, rfl⟩ := resetWith_eq_next_iff.mp h
    rfl

/-- The host's run, one step taken first. -/
theorem core_run_succ_eq_next {s t : State} {n : Nat} (h : Host.Core.run core (n + 1) s = .next t) :
    ∃ u, step s = .next u ∧ Host.Core.run core n u = .next t := by
  obtain ⟨u, hu⟩ := step_answers s
  exact ⟨u, hu, core_run_succ n hu ▸ h⟩

/-- Settles O16: induction over the steps; the last state is `Running`, so the state after the first step is, and `step_goes_on_pc` says
how that step moved `pc`. -/
theorem runningAfterStepsHasAdvanced : Obligations.RunningAfterStepsHasAdvanced := by
  unfold Obligations.RunningAfterStepsHasAdvanced
  intro n
  induction n with
  | zero =>
    intro s t h ht
    obtain rfl := Host.Outcome.next.inj h
    exact ⟨ht, rfl, fun h0 => absurd h0 (by decide)⟩
  | succ n ih =>
    intro s t h ht
    obtain ⟨u, hu, hrun⟩ := core_run_succ_eq_next h
    obtain ⟨hur, hpc, hle⟩ := ih u t hrun ht
    obtain ⟨hs, hupc, -, hule⟩ := step_goes_on_pc hu hur
    refine ⟨hs, by omega, fun _ => ?_⟩
    cases n with
    | zero =>
      obtain rfl := Host.Outcome.next.inj hrun
      exact hule
    | succ n => exact hle n.succ_pos

/-- An address that the fetched instruction does not name as its destination reads after a step as before it. -/
theorem step_keeps_cell {s t : State} {x : Int} (h : step s = .next t)
    (hx : ∀ i, s.status = .running → fetch s = .ok i → i.operands[2]? ≠ some x) : memRead t x = memRead s x := by
  by_cases ht : t.status = .running
  · obtain ⟨hs, -, i, c, r, hf, hc, hv, rfl⟩ := step_goes_on h ht
    have hxc : x ≠ c := fun hxc => hx i hs hf (hxc ▸ hc)
    rw [memRead_stored, memRead_set_other hv hxc]
  · exact memRead_congr (step_ends_unchanged h ht).1 x

/-- Settles O54: induction over the steps with `step_keeps_cell`; the states met after the first step are met one step later from the
start. -/
theorem cellsKeepTheirValueUntilStored : Obligations.CellsKeepTheirValueUntilStored := by
  unfold Obligations.CellsKeepTheirValueUntilStored
  intro n
  induction n with
  | zero =>
    intro s u x h _
    obtain rfl := Host.Outcome.next.inj h
    rfl
  | succ n ih =>
    intro s u x h hx
    obtain ⟨t, ht, hrun⟩ := core_run_succ_eq_next h
    calc memRead u x = memRead t x :=
          ih t u x hrun fun m w i hm hw => hx (m + 1) w i (by omega) (core_run_succ m ht ▸ hw)
      _ = memRead s x := step_keeps_cell ht fun i hs hf => hx 0 s i n.succ_pos rfl hs hf

end Sys2Proof.Machine

/-! PROOF. What every step keeps, every transaction keeps (10_state.md section 7). -/

namespace Sys2Proof.Machine

section Keeps

variable {P : State → Prop} (hstep : ∀ s t, P s → step s = .next t → P t)
include hstep

theorem runFor_keeps {n : Nat} : ∀ {s t : State}, P s → runFor n s = .next t → P t := by
  induction n with
  | zero =>
    intro s t hs h
    exact Host.Outcome.next.inj h ▸ hs
  | succ n ih =>
    intro s t hs h
    by_cases hr : s.status = .running
    · obtain ⟨u, hu⟩ := step_answers s
      rw [runFor_succ n hr hu] at h
      exact ih (hstep s u hs hu) h
    · rw [runFor_terminal _ hr] at h
      exact Host.Outcome.next.inj h ▸ hs

/-- Only `Reset` has to be looked at beside the steps: `Run` is made of steps, and the other transactions change nothing. -/
theorem transact_keeps {q : Transaction} {s t : State} {r : Reply} (hs : P s)
    (hreset : ∀ img, q = .reset img → resetWith img s = .next t → P t) (h : transact q s = .next (t, r)) : P t := by
  cases q with
  | reset img => exact hreset img rfl (withReply_eq_next h).1
  | step => exact hstep s t hs (withReply_eq_next h).1
  | run => exact runFor_keeps hstep hs (withReply_eq_next h).1
  | isFinished => cases h; exact hs
  | status => cases h; exact hs
  | peek a =>
    simp only [transact] at h
    split at h <;> cases h <;> exact hs

/-- The induction over the transactions that lead to a state. `P` says of the parameters what a `Reset` among them needs. -/
theorem Reachable.keeps (hreset : ∀ img s t, s.params.wf = true → resetWith img s = .next t → P t)
    (hparams : ∀ s, P s → s.params.wf = true) {s : State} (h : Reachable s) : P s := by
  induction h with
  | reset s t img hp h => exact hreset img s t hp h
  | transact q s t r _ h ih => exact transact_keeps hstep ih (fun img _ => hreset img s t (hparams s ih)) h

end Keeps

theorem step_keeps_len_params {s t : State} (h : step s = .next t) : t.len = s.len ∧ t.params = s.params := by
  rcases step_next_cases h with ⟨-, rfl⟩ | ⟨-, -, rfl⟩ | ⟨-, -, k, rfl⟩ | ⟨-, -, c, r, -, -, rfl, -⟩
  · exact ⟨rfl, rfl⟩
  · exact ⟨rfl, rfl⟩
  · exact ⟨rfl, rfl⟩
  · exact ⟨s.stored_len c r, rfl⟩

/-- Settles O31: a step keeps both (`step_keeps_len_params`), so every transaction does (`transact_keeps`), but that `Reset`, which keeps
the parameters, has its own `LEN`. -/
theorem lengthIsFixedAfterReset : Obligations.LengthIsFixedAfterReset := by
  unfold Obligations.LengthIsFixedAfterReset
  refine ⟨fun s t h => step_keeps_len_params h, fun q s t r h => ⟨?_, fun hq => ?_⟩⟩
  · refine transact_keeps (P := fun u => u.params = s.params) (fun u v hu hv => ?_) rfl (fun img _ hr => ?_) h
    · exact (step_keeps_len_params hv).2.trans hu
    · obtain ⟨-, rfl⟩ := resetWith_eq_next_iff.mp hr
      rfl
  · refine transact_keeps (P := fun u => u.len = s.len) (fun u v hu hv => ?_) rfl (fun img hr => ?_) h
    · exact (step_keeps_len_params hv).1.trans hu
    · exact absurd hr (hq img)

end Sys2Proof.Machine

/-! PROOF. The invariant of a run (40_step.md section 5), part by part, then through steps, transactions and reachable states. -/

namespace Sys2Proof.Machine

theorem step_keeps_pcInv {s t : State} (hi : s.PcInv) (h : step s = .next t) : t.PcInv := by
  obtain ⟨h4, hle⟩ := hi
  by_cases ht : t.status = .running
  · obtain ⟨-, hpc, -, hpcle⟩ := step_goes_on_pc h ht
    exact ⟨by omega, hpcle⟩
  · obtain ⟨hmem, hpc⟩ := step_ends_unchanged h ht
    have hlen : t.len = s.len := congrArg List.length hmem
    exact ⟨by omega, by omega⟩

/-- The stored value fits, by `narrow_fits` behind `step_cases`. -/
theorem step_keeps_memInv {s t : State} (hi : s.MemInv) (h : step s = .next t) : t.MemInv := by
  obtain ⟨hp, hm⟩ := hi
  rcases step_next_cases h with ⟨-, rfl⟩ | ⟨-, -, rfl⟩ | ⟨-, -, k, rfl⟩ | ⟨-, -, c, r, -, -, rfl, hr⟩
  · exact ⟨hp, hm⟩
  · exact ⟨hp, hm⟩
  · exact ⟨hp, hm⟩
  · exact ⟨hp, Memory.wf_set c.toNat hm (hr hp)⟩

theorem step_keeps_faultInv {s t : State} (hi : s.FaultInv) (h : step s = .next t) : t.FaultInv := by
  rcases step_next_cases h with ⟨-, rfl⟩ | ⟨hs, -, rfl⟩ | ⟨-, -, k, rfl⟩ | ⟨-, -, c, r, -, -, rfl, -⟩
  · exact hi
  · simpa [State.FaultInv, hs] using hi
  · simp [State.FaultInv]
  · exact hi

theorem step_keeps_endInv {s t : State} (hi : s.EndInv) (h : step s = .next t) : t.EndInv := by
  rcases step_next_cases h with ⟨-, rfl⟩ | ⟨-, hf, rfl⟩ | ⟨-, hf, k, rfl⟩ | ⟨hs, -, c, r, -, -, rfl, -⟩
  · exact hi
  · exact ⟨fun _ => hf, nofun⟩
  · exact ⟨nofun, fun _ => hf⟩
  · simp [State.EndInv, hs]

theorem step_keeps_inv {s t : State} (hi : s.Inv) (h : step s = .next t) : t.Inv := by
  obtain ⟨hpc, hmem, hfault, hend⟩ := hi
  exact ⟨step_keeps_pcInv hpc h, step_keeps_memInv hmem h, step_keeps_faultInv hfault h, step_keeps_endInv hend h⟩

/-- Settles O37: each part of the invariant is kept (`step_keeps_inv`). -/
theorem stepKeepsTheRunInvariant : Obligations.StepKeepsTheRunInvariant := by
  unfold Obligations.StepKeepsTheRunInvariant
  exact fun s t => step_keeps_inv

theorem load_inv {p : Params} {img : List Cell} (hp : p.wf = true) (hm : Memory.wf p img = true) : (State.load p img).Inv :=
  ⟨⟨rfl, Nat.zero_le _⟩, ⟨hp, hm⟩, by simp [State.FaultInv], by simp [State.EndInv]⟩

theorem resetWith_inv {s t : State} {img : List Cell} (hp : s.params.wf = true) (h : resetWith img s = .next t) : t.Inv := by
  obtain ⟨hm, rfl⟩ := resetWith_eq_next_iff.mp h
  exact load_inv hp hm

/-- Settles O36: both are a `State.load` of an image in its form (`load_inv`, `resetWith_inv`). -/
theorem resetStateHasTheRunInvariant : Obligations.ResetStateHasTheRunInvariant := by
  unfold Obligations.ResetStateHasTheRunInvariant
  exact ⟨load_inv rfl State.reset_wf, fun s t img => resetWith_inv⟩

/-- Settles O53: a step keeps the invariant and an accepted `Reset` has it, which is all that `transact_keeps` asks. -/
theorem transactionKeepsTheRunInvariant : Obligations.TransactionKeepsTheRunInvariant := by
  unfold Obligations.TransactionKeepsTheRunInvariant
  intro q s t r hi h
  have ⟨_, ⟨hp, _⟩, _⟩ := hi
  exact transact_keeps (fun _ _ => step_keeps_inv) hi (fun img _ => resetWith_inv hp) h

theorem Reachable.inv {s : State} (h : Reachable s) : s.Inv :=
  h.keeps (fun _ _ => step_keeps_inv) (fun _ _ _ => resetWith_inv) fun _ ⟨_, ⟨hp, _⟩, _⟩ => hp

/-- Settles O38: the induction over the transactions (`Reachable.keeps`). -/
theorem reachableStatesHaveTheRunInvariant : Obligations.ReachableStatesHaveTheRunInvariant := by
  unfold Obligations.ReachableStatesHaveTheRunInvariant
  exact fun s => Reachable.inv

end Sys2Proof.Machine

/-! PROOF. ADD and MUL where something faults or does not fit (41_arithmetic.md section 3, 60_exceptions.md R85). -/

namespace Sys2Proof.Machine

section Binary

variable {f : Int → Int → Int} {a b c x y : Cell} {s : State}

theorem binary_source_invalid (h : validAddr s a = false ∨ validAddr s b = false) :
    binary f a b c s = .next (s.takeFault .outOfBounds) := by
  cases ha : memRead s a with
  | error k => simp only [binary, readSource, ha, memRead_error_kind ha, raiseFault]
  | ok x =>
    have hb : memRead s b = .error .outOfBounds := by
      refine memRead_of_not_valid (h.resolve_left ?_)
      simp [validAddr_of_memRead_ok ha]
    simp only [binary, readSource, ha, hb, raiseFault]

theorem binary_overflows (ha : memRead s a = .ok x) (hb : memRead s b = .ok y) (hn : narrow s.params (f x y) = none) :
    binary f a b c s = .next (s.takeFault .arithOverflow) := by
  simp only [binary, readSource, ha, hb, hn, raiseFault]

theorem binary_dest_invalid {r : Cell} (ha : memRead s a = .ok x) (hb : memRead s b = .ok y)
    (hn : narrow s.params (f x y) = some r) (hc : validAddr s c = false) :
    binary f a b c s = .next (s.takeFault .outOfBounds) := by
  have hw : writeDest s c r = .error .outOfBounds := by simp [writeDest, memWrite, hc]
  simp only [binary, readSource, ha, hb, hn, hw, raiseFault]

/-- Both sources are checked alike, so their order shows in the result alone (41_arithmetic.md R76). -/
theorem binary_swap (hf : ∀ x y, f x y = f y x) : binary f a b c s = binary f b a c s := by
  by_cases hv : validAddr s a = false ∨ validAddr s b = false
  · rw [binary_source_invalid hv, binary_source_invalid hv.symm]
  · simp only [not_or, Bool.not_eq_false] at hv
    obtain ⟨x, ha⟩ := memRead_of_valid hv.1
    obtain ⟨y, hb⟩ := memRead_of_valid hv.2
    simp only [binary, readSource, ha, hb, hf x y]

theorem narrow_of_fault_mode {p : Params} {r : Int} (hf : fitsW p.width r = false) (ho : p.ovf = .fault) : narrow p r = none := by
  simp [narrow, hf, ho]

theorem narrow_of_wrap_mode {p : Params} {r : Int} (hf : fitsW p.width r = false) (ho : p.ovf = .wrap) :
    narrow p r = some (wrapW p.width r) := by
  simp [narrow, hf, ho]

/-- With readable sources and an invalid destination the overflow is found first (60_exceptions.md R85, D10). -/
theorem binary_faults_before_dest (ha : memRead s a = .ok x) (hb : memRead s b = .ok y) (hc : validAddr s c = false) :
    FaultsWith (binary f a b c s) s
      (if fitsW s.params.width (f x y) = true ∨ s.params.ovf = .wrap then .outOfBounds else .arithOverflow) := by
  rcases narrow_cases s.params (f x y) with ⟨hf, hn⟩ | ⟨hf, ho, hn⟩ | ⟨-, ho, hn⟩
  · rw [if_pos (.inl hf), binary_dest_invalid ha hb hn hc]
    exact faultsWith_takeFault s _
  · rw [if_neg (by simp [hf, ho]), binary_overflows ha hb hn]
    exact faultsWith_takeFault s _
  · rw [if_pos (.inr ho), binary_dest_invalid ha hb hn hc]
    exact faultsWith_takeFault s _

end Binary

theorem exec_add (a b c : Cell) (s : State) : exec (.add a b c) s = binary (fun x y => x + y) a b c s := rfl

theorem exec_mul (a b c : Cell) (s : State) : exec (.mul a b c) s = binary (fun x y => x * y) a b c s := rfl

/-- Settles O19: `binary_overflows`, which has no premise on the destination. -/
theorem overflowFaultsUnderFaultMode : Obligations.OverflowFaultsUnderFaultMode := by
  unfold Obligations.OverflowFaultsUnderFaultMode
  intro s a b c x y ha hb ho
  refine ⟨fun hf => ?_, fun hf => ?_⟩
  · rw [exec_add, binary_overflows ha hb (narrow_of_fault_mode hf ho)]
    exact faultsWith_takeFault s _
  · rw [exec_mul, binary_overflows ha hb (narrow_of_fault_mode hf ho)]
    exact faultsWith_takeFault s _

/-- Settles O20: the wrapped result is what `narrow` leaves to store (`binary_storesAndAdvances`). -/
theorem overflowWrapsUnderWrapMode : Obligations.OverflowWrapsUnderWrapMode := by
  unfold Obligations.OverflowWrapsUnderWrapMode
  intro s a b c x y ha hb hc ho
  exact ⟨fun hf => exec_add a b c s ▸ binary_storesAndAdvances ha hb (narrow_of_wrap_mode hf ho) hc,
    fun hf => exec_mul a b c s ▸ binary_storesAndAdvances ha hb (narrow_of_wrap_mode hf ho) hc⟩

/-- Settles O22: `binary_source_invalid` for the sources, then `binary_faults_before_dest`. -/
theorem arithmeticFaultsComeInOrder : Obligations.ArithmeticFaultsComeInOrder := by
  unfold Obligations.ArithmeticFaultsComeInOrder
  intro s a b c
  simp only [exec_add, exec_mul]
  refine ⟨fun ha => ?_, fun _ hb => ?_, fun x y ha hb hc => ?_⟩
  · rw [binary_source_invalid (.inl ha), binary_source_invalid (.inl ha)]
    exact ⟨faultsWith_takeFault s _, faultsWith_takeFault s _⟩
  · rw [binary_source_invalid (.inr hb), binary_source_invalid (.inr hb)]
    exact ⟨faultsWith_takeFault s _, faultsWith_takeFault s _⟩
  · exact ⟨binary_faults_before_dest ha hb hc, binary_faults_before_dest ha hb hc⟩

/-- Settles O26: `binary_swap` for the sum and the product. -/
theorem sourcesMayBeExchanged : Obligations.SourcesMayBeExchanged := by
  unfold Obligations.SourcesMayBeExchanged
  exact fun s a b c => ⟨binary_swap Int.add_comm, binary_swap Int.mul_comm⟩

/-- Settles O23: the fault and the store of `exec_cases`; the store is to the operand `c` that the statement names. -/
theorem arithmeticFrame : Obligations.ArithmeticFrame := by
  unfold Obligations.ArithmeticFrame
  intro i a b c s t hi h
  have hop : i.operands[2]? = some c := by rcases hi with rfl | rfl <;> rfl
  rcases exec_cases i s with ⟨k, he⟩ | ⟨c', r, hc, hv, he, -⟩ | ⟨rfl, -⟩
  · obtain rfl := Host.Outcome.next.inj (he.symm.trans h)
    exact ⟨fun x _ => memRead_congr rfl x, rfl, rfl, .inr ⟨rfl, ⟨k, rfl⟩, rfl, rfl⟩⟩
  · obtain rfl := Host.Outcome.next.inj (he.symm.trans h)
    obtain rfl := Option.some.inj (hc.symm.trans hop)
    refine ⟨fun x hx => ?_, s.stored_len _ r, rfl, .inl ⟨rfl, rfl, rfl⟩⟩
    rw [memRead_stored, memRead_set_other hv hx]
  · cases hop

/-- In the range of `w` bits an integer represents itself. -/
theorem wrapW_of_fits {w : Nat} {r : Int} (hw : 1 ≤ w) (h : fitsW (.bits w) r = true) : wrapW (.bits w) r = r := by
  obtain ⟨k, rfl⟩ : ∃ k, w = k + 1 := ⟨w - 1, by omega⟩
  have h2 : ((2 ^ (k + 1) : Nat) : Int) = 2 * 2 ^ k := by push_cast; ring
  simp only [fitsW, Nat.add_sub_cancel, decide_eq_true_eq] at h
  exact Int.bmod_eq_of_le (by omega) (by omega)

theorem wrapW_congr {w : Nat} {r v : Int} (h : (r - v) % 2 ^ w = 0) : wrapW (.bits w) r = wrapW (.bits w) v := by
  refine Int.bmod_eq_bmod_iff_bmod_sub_eq_zero.mpr ?_
  rw [← Int.emod_bmod]
  push_cast
  rw [h, Int.zero_bmod]

/-- Settles O21: a value in the range is its own representative (`wrapW_of_fits`), and congruent values have the same one
(`wrapW_congr`). -/
theorem wrapIsTheUniqueRepresentative : Obligations.WrapIsTheUniqueRepresentative := by
  unfold Obligations.WrapIsTheUniqueRepresentative
  refine fun w v hw => ⟨fitsW_wrapW hw v, ?_, fun r hr hcongr => ?_⟩
  · have hdvd : ((2 ^ w : Nat) : Int) ∣ v.bmod (2 ^ w) - v := Int.dvd_bmod_sub_self
    exact Int.emod_eq_zero_of_dvd (by exact_mod_cast hdvd)
  · calc r = wrapW (.bits w) r := (wrapW_of_fits hw hr).symm
      _ = wrapW (.bits w) v := wrapW_congr hcongr

end Sys2Proof.Machine

/-! PROOF. Stores into the instructions of the program itself (41_arithmetic.md section 4). -/

namespace Sys2Proof.Machine

/-- A running step at the cells of an ADD or MUL whose addresses are valid and whose result can be stored. The operands are those of the
cells before the write, wherever `c` lies. -/
theorem step_stores {s : State} {a b c x y v : Cell} {rest : List Cell} (hs : s.status = .running) (ha : memRead s a = .ok x)
    (hb : memRead s b = .ok y) (hc : validAddr s c = true)
    (h : (cellsFrom s s.pc = 1 :: a :: b :: c :: rest ∧ narrow s.params (x + y) = some v) ∨
      (cellsFrom s s.pc = 2 :: a :: b :: c :: rest ∧ narrow s.params (x * y) = some v)) :
    step s = .next (s.stored c v) := by
  rcases h with ⟨hcells, hn⟩ | ⟨hcells, hn⟩
  · rw [step_of_cells (i := .add a b c) hs hcells, exec_add, binary_stores ha hb hn hc]
  · rw [step_of_cells (i := .mul a b c) hs hcells, exec_mul, binary_stores ha hb hn hc]

/-- Settles O24: `step_stores` asks nothing of where `c` lies. -/
theorem operandsAreReadBeforeTheWrite : Obligations.OperandsAreReadBeforeTheWrite := by
  unfold Obligations.OperandsAreReadBeforeTheWrite
  intro s a b c x y v rest hs ha hb hc _
  refine ⟨fun hcells hn => ?_, fun hcells hn => ?_⟩
  · rw [step_stores hs ha hb hc (.inl ⟨hcells, hn⟩)]
    exact storesAndAdvances_stored v hc
  · rw [step_stores hs ha hb hc (.inr ⟨hcells, hn⟩)]
    exact storesAndAdvances_stored v hc

theorem cellsFrom_stored {s : State} {n c : Nat} (r : Cell) (h : n ≤ c) :
    cellsFrom (s.stored c r) n = (cellsFrom s n).set (c - n) r := by
  unfold cellsFrom
  rw [State.stored_mem, Int.toNat_natCast, List.drop_set, if_neg (by omega)]

/-- A running step at four cells of which the first is 1 or 2. -/
theorem step_at_arith_cells {s : State} {op a b c : Cell} {rest : List Cell} (hs : s.status = .running)
    (h : cellsFrom s s.pc = op :: a :: b :: c :: rest) :
    (op = 1 → step s = exec (.add a b c) s) ∧ (op = 2 → step s = exec (.mul a b c) s) := by
  refine ⟨?_, ?_⟩ <;> rintro rfl
  · exact step_of_cells (i := .add a b c) hs h
  · exact step_of_cells (i := .mul a b c) hs h

/-- A running step at a cell that holds no opcode (30_encoding.md R47). -/
theorem step_at_unknown_cell {s : State} {v : Cell} (hs : s.status = .running) (hc : cellAt s.mem s.pc = some v)
    (hv : v ≠ 1 ∧ v ≠ 2 ∧ v ≠ 99) : step s = .next (s.takeFault .unknownOpcode) :=
  step_of_fetch_error hs hc (fetch_unknownOpcode hc hv)

/-- Settles O25: the step leaves `s.stored c v` (`step_stores`), in whose cells from `pc + 4` on the value stands in its place
(`cellsFrom_stored`); the next step runs whatever these cells are, one case for each position of `c`. -/
theorem storeIsSeenByTheNextFetch : Obligations.StoreIsSeenByTheNextFetch := by
  unfold Obligations.StoreIsSeenByTheNextFetch
  intro s t a b x y v c rest hs ha hb hle hlt h hstep
  have hvalid : validAddr s c = true := validAddr_iff.mpr (by omega)
  obtain rfl := Host.Outcome.next.inj ((step_stores hs ha hb hvalid h).symm.trans hstep)
  have hcell : cellAt (s.stored c v).mem c = some v := memRead_eq_ok_iff.mp (by rw [memRead_stored, memRead_set_same hvalid])
  have hcells : cellsFrom (s.stored c v) (s.stored c v).pc = (cellsFrom s (s.pc + 4)).set (c - (s.pc + 4)) v :=
    cellsFrom_stored v hle
  have hrun : (s.stored c v).status = .running := hs
  refine ⟨hcell, rfl, hrun, hcells, ?_, ?_⟩
  · rintro rfl
    refine ⟨?_, fun h1 h2 h99 => ?_, fun a' b' c' rest' hrest => ?_⟩
    · rintro rfl
      exact step_at_halt_cell hrun hcell ▸ haltsUnchanged_halt _
    · exact step_at_unknown_cell hrun hcell ⟨h1, h2, h99⟩ ▸ faultsWith_takeFault _ _
    · obtain ⟨old, hold⟩ := memRead_of_valid hvalid
      rw [cellsFrom_eq_cons (memRead_eq_ok_iff.mp hold), hrest, Nat.sub_self] at hcells
      exact step_at_arith_cells hrun hcells
  · intro op a' b' c' rest' hrest
    rw [hrest] at hcells
    refine ⟨fun hc => ?_, fun hc => ?_, fun hc => ?_, fun hc => ?_⟩
    · rw [show c - (s.pc + 4) = 1 by omega] at hcells
      exact step_at_arith_cells hrun hcells
    · rw [show c - (s.pc + 4) = 2 by omega] at hcells
      exact step_at_arith_cells hrun hcells
    · rw [show c - (s.pc + 4) = 3 by omega] at hcells
      exact step_at_arith_cells hrun hcells
    · rw [show c - (s.pc + 4) = (c - (s.pc + 8)) + 4 by omega] at hcells
      exact step_at_arith_cells hrun hcells

end Sys2Proof.Machine

/-! PROOF. What the opcode cell of a faulted run holds (40_step.md R63). -/

namespace Sys2Proof.Machine

theorem takeFault_inj {s : State} {k l : FaultKind} (h : s.takeFault k = s.takeFault l) : k = l :=
  Option.some.inj (congrArg State.faultKind h)

/-- ADD and MUL raise no `UnknownOpcode`: the kinds of 60_exceptions.md R82, case by case. -/
theorem binary_ne_unknownOpcode (f : Int → Int → Int) (a b c : Cell) (s : State) :
    binary f a b c s ≠ .next (s.takeFault .unknownOpcode) := by
  intro h
  by_cases hv : validAddr s a = false ∨ validAddr s b = false
  · rw [binary_source_invalid hv] at h
    cases takeFault_inj (Host.Outcome.next.inj h)
  simp only [not_or, Bool.not_eq_false] at hv
  obtain ⟨x, ha⟩ := memRead_of_valid hv.1
  obtain ⟨y, hb⟩ := memRead_of_valid hv.2
  cases hn : narrow s.params (f x y) with
  | none =>
    rw [binary_overflows ha hb hn] at h
    cases takeFault_inj (Host.Outcome.next.inj h)
  | some r =>
    cases hc : validAddr s c with
    | false =>
      rw [binary_dest_invalid ha hb hn hc] at h
      cases takeFault_inj (Host.Outcome.next.inj h)
    | true =>
      rw [binary_stores ha hb hn hc] at h
      have hpc : s.pc + 4 = s.pc := congrArg State.pc (Host.Outcome.next.inj h)
      omega

theorem exec_ne_unknownOpcode (i : Instr) (s : State) : exec i s ≠ .next (s.takeFault .unknownOpcode) := by
  cases i with
  | add a b c => exact binary_ne_unknownOpcode _ a b c s
  | mul a b c => exact binary_ne_unknownOpcode _ a b c s
  | halt => exact fun h => nomatch congrArg State.status (Host.Outcome.next.inj h)

theorem fetch_eq_unknownOpcode_iff {s : State} {v : Cell} (hc : cellAt s.mem s.pc = some v) :
    fetch s = .error .unknownOpcode ↔ v ≠ 1 ∧ v ≠ 2 ∧ v ≠ 99 := by
  refine ⟨fun h => ?_, fetch_unknownOpcode hc⟩
  cases hd : decode (cellsFrom s s.pc) with
  | ok p =>
    obtain ⟨i, rest⟩ := p
    rw [fetch_of_cells (decode_eq_ok_iff.mp hd)] at h
    cases h
  | error e =>
    rw [fetch_of_decode_error hd] at h
    cases e with
    | unknownOpcode =>
      rw [cellsFrom_eq_cons hc] at hd
      exact decode_eq_unknownOpcode_iff.mp hd
    | truncated => cases h
    | noCell => cases h

/-- A running step raises `UnknownOpcode` for what its opcode cell holds and for nothing else (30_encoding.md R47). -/
theorem step_eq_unknownOpcode_iff {s : State} {v : Cell} (hs : s.status = .running) (hc : cellAt s.mem s.pc = some v) :
    step s = .next (s.takeFault .unknownOpcode) ↔ v ≠ 1 ∧ v ≠ 2 ∧ v ≠ 99 := by
  refine ⟨fun h => ?_, step_at_unknown_cell hs hc⟩
  rw [step_running hs (pc_lt_len_of_cellAt hc)] at h
  cases hf : fetch s with
  | error k =>
    rw [hf] at h
    obtain rfl := takeFault_inj (Host.Outcome.next.inj h)
    exact (fetch_eq_unknownOpcode_iff hc).mp hf
  | ok i =>
    rw [hf] at h
    exact absurd h (exec_ne_unknownOpcode i s)

/-- The opcode cell of a faulted run tells `UnknownOpcode` from the two kinds that ADD and MUL raise (40_step.md R63). -/
def State.FaultShowsOpcode (s : State) : Prop :=
  s.status = .faulted → ∃ v, cellAt s.mem s.pc = some v ∧
    (s.faultKind = some .outOfBounds ∨ s.faultKind = some .arithOverflow → v = 1 ∨ v = 2) ∧
    (s.faultKind = some .unknownOpcode → v ≠ 1 ∧ v ≠ 2 ∧ v ≠ 99)

theorem faultShowsOpcode_of_running {s : State} (hs : s.status = .running) : s.FaultShowsOpcode := by
  intro hf
  rw [hs] at hf
  cases hf

theorem takeFault_showsOpcode {s : State} {k : FaultKind} (hs : s.status = .running) (hf : s.isFinished = false)
    (h : step s = .next (s.takeFault k)) : (s.takeFault k).FaultShowsOpcode := by
  intro _
  obtain ⟨hlt, h99⟩ := s.isFinished_eq_false_iff.mp hf
  obtain ⟨v, hv⟩ := memRead_of_lt_len hlt
  rw [memRead_eq_ok_iff] at hv
  have hkind : k = .unknownOpcode ↔ v ≠ 1 ∧ v ≠ 2 ∧ v ≠ 99 := by
    rw [← step_eq_unknownOpcode_iff hs hv, h, Host.Outcome.next.injEq]
    exact ⟨fun hk => hk ▸ rfl, takeFault_inj⟩
  have hv99 : v ≠ 99 := fun hv99 => h99 (hv99 ▸ hv)
  refine ⟨v, hv, fun hk => ?_, fun hk => hkind.mp (Option.some.inj hk)⟩
  have hne : k ≠ .unknownOpcode := by rcases hk with hk | hk <;> cases hk <;> decide
  by_contra hno
  exact hne (hkind.mpr (by tauto))

theorem step_keeps_faultShowsOpcode {s t : State} (hi : s.FaultShowsOpcode) (h : step s = .next t) : t.FaultShowsOpcode := by
  rcases step_next_cases h with ⟨-, rfl⟩ | ⟨-, -, rfl⟩ | ⟨hs, hf, k, rfl⟩ | ⟨hs, -, c, r, -, -, rfl, -⟩
  · exact hi
  · exact nofun
  · exact takeFault_showsOpcode hs hf h
  · exact faultShowsOpcode_of_running hs

theorem Reachable.faultShowsOpcode {s : State} (h : Reachable s) : s.FaultShowsOpcode := by
  refine (h.keeps (P := fun s => s.Inv ∧ s.FaultShowsOpcode) (fun s t hi ht => ?_) (fun img s t hp ht => ?_) ?_).2
  · exact ⟨step_keeps_inv hi.1 ht, step_keeps_faultShowsOpcode hi.2 ht⟩
  · refine ⟨resetWith_inv hp ht, faultShowsOpcode_of_running ?_⟩
    obtain ⟨-, rfl⟩ := resetWith_eq_next_iff.mp ht
    rfl
  · exact fun _ ⟨⟨_, ⟨hp, _⟩, _⟩, _⟩ => hp

/-- Settles O40: the invariant of a run for `IsFinished()` (`Reachable.inv`), `Reachable.faultShowsOpcode` for the opcode cell, and
`step_finished` for the next step. -/
theorem finishedAndStatusAgree : Obligations.FinishedAndStatusAgree := by
  unfold Obligations.FinishedAndStatusAgree
  intro s hr
  obtain ⟨-, -, -, hhalted, hfaulted⟩ := hr.inv
  refine ⟨hhalted, fun hf => ?_, fun hs hfin => step_finished hs hfin ▸ haltsUnchanged_halt s⟩
  obtain ⟨v, hv, hkind⟩ := hr.faultShowsOpcode hf
  exact ⟨hfaulted hf, pc_lt_len_of_cellAt hv, v, hv, hkind⟩

end Sys2Proof.Machine

/-! PROOF. Running to completion (40_step.md section 3). -/

namespace Sys2Proof.Machine

/-- R66: a step that goes on uses up four of the cells from `pc` on, so the loop has ended when `(LEN - pc) / 4 + 1` rounds are over, and
further rounds change nothing. -/
theorem runFor_ends {n : Nat} : ∀ {s : State}, (s.len - s.pc) / 4 < n →
    ∃ t, t.status ≠ .running ∧ ∀ m, n ≤ m → runFor m s = .next t := by
  induction n with
  | zero => exact fun h => absurd h (Nat.not_lt_zero _)
  | succ n ih =>
    intro s hn
    by_cases hs : s.status = .running
    case neg => exact ⟨s, hs, fun m _ => runFor_terminal m hs⟩
    obtain ⟨u, hu⟩ := step_answers s
    have hrest : ∃ t, t.status ≠ .running ∧ ∀ m, n ≤ m → runFor m u = .next t := by
      by_cases hr : u.status = .running
      · obtain ⟨-, hpc, hlen, hle⟩ := step_goes_on_pc hu hr
        exact ih (by omega)
      · exact ⟨u, hr, fun m _ => runFor_terminal m hr⟩
    obtain ⟨t, ht, hrun⟩ := hrest
    refine ⟨t, ht, fun m hm => ?_⟩
    obtain ⟨m, rfl⟩ : ∃ k, m = k + 1 := ⟨m - 1, by omega⟩
    rw [runFor_succ m hs hu]
    exact hrun m (by omega)

/-- `Run()` always ends, and any number of rounds from the bound of R66 on is `Run()`. -/
theorem run_ends (s : State) :
    ∃ t, run s = .next t ∧ t.status ≠ .running ∧ ∀ n, s.len / 4 + 1 ≤ n → runFor n s = .next t := by
  obtain ⟨t, ht, hrun⟩ := runFor_ends (s := s) (n := s.len / 4 + 1) (by omega)
  exact ⟨t, hrun _ le_rfl, ht, hrun⟩

theorem runFor_eq_run {s : State} {n : Nat} (h : s.len / 4 + 1 ≤ n) : runFor n s = run s := by
  obtain ⟨t, hrun, -, hfor⟩ := run_ends s
  rw [hrun, hfor n h]

theorem run_terminal {s : State} (hs : s.status ≠ .running) : run s = .next s := runFor_terminal _ hs

/-- The loop of R64 with no bound in it. -/
theorem run_of_step {s t : State} (hs : s.status = .running) (h : step s = .next t) : run s = run t := by
  have hlen := (step_keeps_len_params h).1
  calc run s = runFor (s.len / 4 + 1 + 1) s := (runFor_eq_run (by omega)).symm
    _ = runFor (s.len / 4 + 1) t := runFor_succ _ hs h
    _ = run t := runFor_eq_run (by omega)

theorem run_keeps_faultInv {s t : State} (hi : s.FaultInv) (h : run s = .next t) : t.FaultInv :=
  runFor_keeps (P := State.FaultInv) (fun _ _ => step_keeps_faultInv) hi h

theorem transact_run {s t : State} (h : run s = .next t) : transact .run s = .next (t, .ended t.status t.faultKind) := by
  simp only [transact, h, withReply]

/-- Settles O41: `run_ends`. -/
theorem runEndsWithinTheStepBound : Obligations.RunEndsWithinTheStepBound := by
  unfold Obligations.RunEndsWithinTheStepBound
  exact run_ends

/-- Settles O42: `run_terminal` and `run_of_step`. -/
theorem runIsTheLoopOverSteps : Obligations.RunIsTheLoopOverSteps := by
  unfold Obligations.RunIsTheLoopOverSteps
  refine fun s => ⟨run_terminal, fun hs => ?_⟩
  obtain ⟨t, ht⟩ := step_answers s
  exact ⟨t, ht, run_of_step hs ht⟩

/-- What R65 lets the spec's loop leave (`t`) where the source's loop leaves `u`. -/
def AgreesWithSource (t u : State) : Prop :=
  t.mem = u.mem ∧ t.pc = u.pc ∧ t.faultKind = u.faultKind ∧
    (t.status = u.status ∨ (t.status = .halted ∧ u.status = .running ∧ u.isFinished = true))

theorem AgreesWithSource.refl (s : State) : AgreesWithSource s s := ⟨rfl, rfl, rfl, .inl rfl⟩

/-- The source's loop goes round in a halted run that is not finished, but to no effect. -/
theorem sourceLoopFor_terminal {s : State} (n : Nat) (hs : s.status ≠ .running) : sourceLoopFor n s = .next s := by
  by_cases hstop : s.isFinished = true ∨ s.status = .faulted
  · exact sourceLoopFor_stops n hstop
  simp only [not_or, Bool.not_eq_true] at hstop
  obtain ⟨hf, hnf⟩ := hstop
  induction n with
  | zero => rfl
  | succ n ih => rw [sourceLoopFor_succ n hf hnf (step_terminal hs), ih]

/-- The two loops agree after every number of rounds: they make the same steps until the run is finished or has ended, and then the spec's
loop makes at most the one step that halts. -/
theorem runFor_agrees_sourceLoopFor {n : Nat} : ∀ s : State,
    ∃ t u, runFor n s = .next t ∧ sourceLoopFor n s = .next u ∧ AgreesWithSource t u := by
  induction n with
  | zero => exact fun s => ⟨s, s, rfl, rfl, .refl s⟩
  | succ n ih =>
    intro s
    by_cases hs : s.status = .running
    · cases hf : s.isFinished with
      | true =>
        refine ⟨s.halt, s, ?_, sourceLoopFor_stops _ (.inl hf), rfl, rfl, rfl, .inr ⟨rfl, hs, hf⟩⟩
        rw [runFor_succ n hs (step_finished hs hf), runFor_terminal n (by simp)]
      | false =>
        obtain ⟨v, hv⟩ := step_answers s
        rw [runFor_succ n hs hv, sourceLoopFor_succ n hf (by simp [hs]) hv]
        exact ih v
    · exact ⟨s, s, runFor_terminal _ hs, sourceLoopFor_terminal _ hs, .refl s⟩

/-- Settles O43: both loops are cut at the same number of rounds, and agree after any (`runFor_agrees_sourceLoopFor`). -/
theorem runAgreesWithTheSourceLoop : Obligations.RunAgreesWithTheSourceLoop := by
  unfold Obligations.RunAgreesWithTheSourceLoop
  exact fun s => runFor_agrees_sourceLoopFor s

/-- Settles O44: `Run()` ends in a terminal status (`run_ends`) and keeps the invariant of `fault_kind`, which says the rest. -/
theorem runEndsNormallyOrInFailure : Obligations.RunEndsNormallyOrInFailure := by
  unfold Obligations.RunEndsNormallyOrInFailure
  intro s hi
  obtain ⟨t, hrun, ht, -⟩ := run_ends s
  have hfault := run_keeps_faultInv hi hrun
  refine ⟨t, hrun, transact_run hrun, ?_⟩
  cases hst : t.status with
  | running => exact absurd hst ht
  | halted => exact .inl ⟨hst, by simpa [State.FaultInv, hst] using hfault⟩
  | faulted => exact .inr ⟨hst, Option.ne_none_iff_exists'.mp (hfault.mpr hst)⟩

end Sys2Proof.Machine

/-! PROOF. The transactions as the host sees them (10_state.md section 7). -/

namespace Sys2Proof.Machine

/-- Settles O46: the codes as they are defined. -/
theorem statusAndFaultCodes : Obligations.StatusAndFaultCodes := by
  unfold Obligations.StatusAndFaultCodes
  exact ⟨⟨rfl, rfl, rfl⟩, rfl, rfl, rfl, rfl⟩

theorem transact_peek_ok {s : State} {a : Int} {v : Cell} (h : memRead s a = .ok v) :
    transact (.peek a) s = .next (s, .cell v) := by
  simp only [transact, peek, h]

theorem transact_peek_error {s : State} {a : Int} {k : FaultKind} (h : memRead s a = .error k) :
    transact (.peek a) s = .next (s, .error k) := by
  simp only [transact, peek, h]

/-- Settles O45: `Peek` answers what a read answers (`transact_peek_ok`, `transact_peek_error`). -/
theorem inspectionChangesNothing : Obligations.InspectionChangesNothing := by
  unfold Obligations.InspectionChangesNothing
  refine fun s a => ⟨rfl, transact_isFinished s, fun v h0 hv => ?_, fun h => transact_peek_error (memRead_of_outside h)⟩
  exact transact_peek_ok (memRead_eq_ok_iff.mpr (cellAt_eq_some_iff.mpr ⟨h0, hv⟩))

theorem transact_step {s t : State} (h : step s = .next t) : transact .step s = .next (t, .done) := by
  simp only [transact, h, withReply]

theorem transact_reset_ok {s t : State} {img : List Cell} (h : resetWith img s = .next t) :
    transact (.reset img) s = .next (t, .done) := by
  simp only [transact, h, withReply]

theorem transact_reset_refused {s : State} {img : List Cell} (h : resetWith img s = .refused .imageRefused) :
    transact (.reset img) s = .refused .imageRefused := by
  simp only [transact, h, withReply]

/-- Settles O55: one lemma for each transaction and outcome. -/
theorem actingTransactionsDoTheirOperation : Obligations.ActingTransactionsDoTheirOperation := by
  unfold Obligations.ActingTransactionsDoTheirOperation
  intro s img
  obtain ⟨t, ht⟩ := step_answers s
  obtain ⟨u, hu, -⟩ := run_ends s
  refine ⟨⟨t, ht, transact_step ht⟩, ⟨u, hu, transact_run hu⟩, fun hm => ?_, fun hm => ?_⟩
  · have hreset := resetWith_eq_next_iff.mpr ⟨hm, rfl⟩
    exact ⟨_, hreset, transact_reset_ok hreset⟩
  · have hreset := resetWith_eq_refused_iff.mpr hm
    exact ⟨hreset, transact_reset_refused hreset⟩

end Sys2Proof.Machine

/-! PROOF. Direct evaluation and search (60_exceptions.md section 6). -/

namespace Sys2Proof.Machine

theorem evaluateDirect_short {p : Params} {program : List Cell} {noun verb : Cell} (h : program.length < 3) :
    evaluateDirect p program noun verb = .error (.fault .outOfBounds) := if_pos h

/-- A trial whose image `Reset` accepts is the run of that image. -/
theorem evaluateDirect_of_run {p : Params} {program : List Cell} {noun verb : Cell} {t : State} (h : 3 ≤ program.length)
    (hm : Memory.wf p (trialImage program noun verb) = true)
    (hrun : run (State.load p (trialImage program noun verb)) = .next t) :
    evaluateDirect p program noun verb = trialResult t := by
  have hreset : resetWith (trialImage program noun verb) (State.load p []) = .next (State.load p (trialImage program noun verb)) :=
    resetWith_eq_next_iff.mpr ⟨hm, rfl⟩
  simp only [evaluateDirect, if_neg (Nat.not_lt.mpr h), hreset, hrun]

theorem trialResult_fault {t : State} {k : FaultKind} (h : t.faultKind = some k) : trialResult t = .error (.fault k) := by
  simp only [trialResult, h]

theorem trialResult_value {t : State} {v : Cell} (h : t.faultKind = none) (hv : cellAt t.mem 0 = some v) : trialResult t = .ok v := by
  simp only [trialResult, h, peek, memRead_eq_ok_iff.mpr hv]

theorem trialImage_length (program : List Cell) (noun verb : Cell) : (trialImage program noun verb).length = program.length := by
  simp only [trialImage, List.length_set]

theorem trialImage_noun {program : List Cell} (noun verb : Cell) (h : 1 < program.length) :
    (trialImage program noun verb)[1]? = some noun := by
  rw [trialImage, List.getElem?_set_ne (by decide), List.getElem?_set_self h]

theorem trialImage_verb {program : List Cell} (noun verb : Cell) (h : 2 < program.length) :
    (trialImage program noun verb)[2]? = some verb := by
  rw [trialImage, List.getElem?_set_self (by rwa [List.length_set])]

theorem trialImage_other {program : List Cell} (noun verb : Cell) {n : Nat} (h1 : n ≠ 1) (h2 : n ≠ 2) :
    (trialImage program noun verb)[n]? = program[n]? := by
  rw [trialImage, List.getElem?_set_ne h2.symm, List.getElem?_set_ne h1.symm]

theorem run_keeps_len {s t : State} (h : run s = .next t) : t.len = s.len :=
  runFor_keeps (P := fun u => u.len = s.len) (fun _ _ hu hv => (step_keeps_len_params hv).1.trans hu) rfl h

/-- Settles O48: the trial is the run of its image (`evaluateDirect_of_run`); the kind of a run that faulted is recorded, and one that
did not fault still has its cell 0, as a run keeps `LEN`. -/
theorem evaluateDirectRunsTheTrialImage : Obligations.EvaluateDirectRunsTheTrialImage := by
  unfold Obligations.EvaluateDirectRunsTheTrialImage
  refine fun p program noun verb => ⟨evaluateDirect_short, fun h hm => ?_⟩
  obtain ⟨t, hrun, -⟩ := run_ends (State.load p (trialImage program noun verb))
  have hfault : t.FaultInv := run_keeps_faultInv (by simp [State.FaultInv]) hrun
  have hlen : t.len = program.length := (run_keeps_len hrun).trans (trialImage_length program noun verb)
  rw [evaluateDirect_of_run h hm hrun]
  refine ⟨trialImage_length program noun verb, trialImage_noun noun verb (by omega), trialImage_verb noun verb (by omega),
    fun n => trialImage_other noun verb, t, hrun, fun hf => ?_, fun hf => ?_⟩
  · obtain ⟨k, hk⟩ := Option.ne_none_iff_exists'.mp (hfault.mpr hf)
    exact ⟨k, hk, trialResult_fault hk⟩
  · obtain ⟨v, hv⟩ := memRead_of_valid (s := t) (a := 0) (validAddr_iff.mpr (by omega))
    rw [memRead_eq_ok_iff] at hv
    exact ⟨v, hv, trialResult_value (not_not.mp fun hk => hf (hfault.mp hk)) hv⟩

section Search

variable (p : Params) (program : List Cell) (target : Cell)

/-- The inner loop of the search is the library's search for the first element. -/
theorem searchVerbs_eq_find? (noun : Cell) (verbs : List Cell) :
    searchVerbs p program target noun verbs = verbs.find? (fun v => decide (evaluateDirect p program noun v = .ok target)) := by
  induction verbs with
  | nil => rfl
  | cons v vs ih => by_cases h : evaluateDirect p program noun v = .ok target <;> simp [searchVerbs, h, ih]

/-- The outer loop asks the inner one for every noun until it answers. -/
theorem search_eq_findSome? (nouns verbs : List Cell) :
    search p program target nouns verbs =
      nouns.findSome? (fun n => (searchVerbs p program target n verbs).map (fun v => (n, v))) := by
  induction nouns with
  | nil => rfl
  | cons n ns ih => cases h : searchVerbs p program target n verbs <;> simp [search, h, ih]

variable {p program target}

theorem searchVerbs_eq_none_iff {noun : Cell} {verbs : List Cell} :
    searchVerbs p program target noun verbs = none ↔ ∀ v ∈ verbs, evaluateDirect p program noun v ≠ .ok target := by
  simp [searchVerbs_eq_find?]

theorem searchVerbs_eq_some {noun verb : Cell} {verbs : List Cell} (h : searchVerbs p program target noun verbs = some verb) :
    ∃ vs vs', verbs = vs ++ verb :: vs' ∧ evaluateDirect p program noun verb = .ok target ∧
      ∀ v ∈ vs, evaluateDirect p program noun v ≠ .ok target := by
  rw [searchVerbs_eq_find?, List.find?_eq_some_iff_append] at h
  obtain ⟨htarget, vs, vs', hverbs, hbefore⟩ := h
  exact ⟨vs, vs', hverbs, by simpa using htarget, by simpa using hbefore⟩

theorem search_eq_none_iff {nouns verbs : List Cell} :
    search p program target nouns verbs = none ↔ ∀ n ∈ nouns, ∀ v ∈ verbs, evaluateDirect p program n v ≠ .ok target := by
  simp [search_eq_findSome?, searchVerbs_eq_none_iff]

theorem search_eq_some {nouns verbs : List Cell} {noun verb : Cell} (h : search p program target nouns verbs = some (noun, verb)) :
    ∃ ns ns', nouns = ns ++ noun :: ns' ∧ searchVerbs p program target noun verbs = some verb ∧
      ∀ n ∈ ns, searchVerbs p program target n verbs = none := by
  rw [search_eq_findSome?, List.findSome?_eq_some_iff] at h
  obtain ⟨ns, n, ns', rfl, hn, hbefore⟩ := h
  obtain ⟨v, hv, hnv⟩ := Option.map_eq_some_iff.mp hn
  cases hnv
  exact ⟨ns, ns', rfl, hv, fun n hn => Option.map_eq_none_iff.mp (hbefore n hn)⟩

end Search

/-- Settles O49: the first noun that answers (`search_eq_some`), and for it the first verb that matches (`searchVerbs_eq_some`). -/
theorem searchFindsTheFirstMatch : Obligations.SearchFindsTheFirstMatch := by
  unfold Obligations.SearchFindsTheFirstMatch
  refine fun p program target nouns verbs => ⟨fun noun verb h => ?_, search_eq_none_iff⟩
  obtain ⟨ns, ns', hnouns, hverb, hns⟩ := search_eq_some h
  obtain ⟨vs, vs', hverbs, htarget, hvs⟩ := searchVerbs_eq_some hverb
  exact ⟨ns, ns', vs, vs', hnouns, hverbs, htarget, fun n hn => searchVerbs_eq_none_iff.mp (hns n hn), hvs⟩

theorem mem_rangeInclusive {lo hi : Nat} {v : Int} : v ∈ rangeInclusive lo hi ↔ (lo : Int) ≤ v ∧ v ≤ hi := by
  simp only [rangeInclusive, List.mem_map, List.mem_range'_1]
  constructor
  · rintro ⟨n, hn, rfl⟩
    simp only [Int.ofNat_eq_natCast]
    omega
  · rintro ⟨hlo, hhi⟩
    exact ⟨v.toNat, by omega, Int.toNat_of_nonneg (by omega)⟩

theorem rangeInclusive_ascending (lo hi : Nat) : (rangeInclusive lo hi).Pairwise (fun v w => v < w) :=
  List.pairwise_map.mpr ((List.pairwise_lt_range' 1).imp Int.ofNat_lt.mpr)

/-- Settles O50: the literals as they are defined, the ranges by `mem_rangeInclusive` and `rangeInclusive_ascending`. -/
theorem hostModesUseTheSourceLiterals : Obligations.HostModesUseTheSourceLiterals := by
  unfold Obligations.HostModesUseTheSourceLiterals
  refine fun p program => ⟨rfl, fun lo hi v => mem_rangeInclusive, rangeInclusive_ascending, fun noun verb h => ?_, fun h => ?_⟩
  · simp only [searchRun, DriverParams.source, h]
  · simp only [searchRun, DriverParams.source, h]

end Sys2Proof.Machine

/-! PROOF. A word placed where the step fetches (log 21 and 22). -/

namespace Sys2Proof.Machine

/-- From `a` on, the placed cells stand first, whether memory reached `a` or had to be filled up. -/
theorem drop_placeCells (m : Memory) (a : Nat) (cs : List Cell) : (placeCells m a cs).drop a = cs ++ m.drop (a + cs.length) := by
  have hfill : ((m ++ List.replicate (a - m.length) 0).take a).length = a := by
    simp only [List.length_take, List.length_append, List.length_replicate]
    omega
  rw [placeCells, List.append_assoc, List.drop_left' hfill]

theorem encode_of_decodeTableWord {nbits w : Nat} {i : Instr} (h : decodeTableWord nbits w = some i) :
    ∃ rest, tableCells nbits w = encode i ++ rest := by
  unfold decodeTableWord at h
  cases hd : decode (tableCells nbits w) with
  | error e => rw [hd] at h; cases h
  | ok p =>
    obtain ⟨j, rest⟩ := p
    rw [hd] at h
    obtain rfl := Option.some.inj h
    exact ⟨rest, decode_eq_ok_iff.mp hd⟩

/-- Settles O52: the word's cells begin with the instruction's encoding and stand at `pc`, so the step is its execution
(`step_of_cells`). -/
theorem placedWordIsTheNextInstruction : Obligations.PlacedWordIsTheNextInstruction := by
  unfold Obligations.PlacedWordIsTheNextInstruction
  intro s nbits w i h
  obtain ⟨rest, hrest⟩ := encode_of_decodeTableWord h
  have hcells : cellsFrom (s.withFetchWord nbits w) s.pc = tableCells nbits w ++ s.mem.drop (s.pc + (tableCells nbits w).length) :=
    drop_placeCells s.mem s.pc (tableCells nbits w)
  rw [hrest, List.append_assoc] at hcells
  exact ⟨step_of_cells rfl hcells, rfl, rfl⟩

end Sys2Proof.Machine

/-! PROOF. What lines of assembly stand for (30_encoding.md R51). -/

namespace Sys2Proof.Machine

/-- The cells of a list of lines, counted: the address of the line after them. -/
def totalSize (ls : List AsmLine) : Nat := (ls.map (fun l => l.body.size)).sum

theorem totalSize_cons (l : AsmLine) (ls : List AsmLine) : totalSize (l :: ls) = l.body.size + totalSize ls := rfl

theorem labelsFrom_labelled {l : AsmLine} {n : String} (a : Nat) (ls : List AsmLine) (h : l.label = some n) :
    labelsFrom a (l :: ls) = (n, a) :: labelsFrom (a + l.body.size) ls := by
  simp only [labelsFrom, h]

theorem labelsFrom_unlabelled {l : AsmLine} (a : Nat) (ls : List AsmLine) (h : l.label = none) :
    labelsFrom a (l :: ls) = labelsFrom (a + l.body.size) ls := by
  simp only [labelsFrom, h]

theorem firstDuplicate_cons_eq_none_iff {n : String} {a : Nat} {rest : List (String × Nat)} :
    firstDuplicate ((n, a) :: rest) = none ↔ lookupLabel n rest = none ∧ firstDuplicate rest = none := by
  cases h : lookupLabel n rest <;> simp [firstDuplicate, h]

/-- Where no label stands on two lines, each names the address of its line. -/
theorem lookupLabel_labelsFrom {l : AsmLine} {n : String} {after : List AsmLine} (hl : l.label = some n) (before : List AsmLine) :
    ∀ a, firstDuplicate (labelsFrom a (before ++ l :: after)) = none →
      lookupLabel n (labelsFrom a (before ++ l :: after)) = some (a + totalSize before) := by
  induction before with
  | nil =>
    intro a _
    rw [List.nil_append, labelsFrom_labelled a after hl]
    simp [lookupLabel, totalSize]
  | cons b bs ih =>
    intro a hdup
    rw [totalSize_cons, ← Nat.add_assoc]
    rw [List.cons_append] at hdup ⊢
    cases hb : b.label with
    | none =>
      rw [labelsFrom_unlabelled a _ hb] at hdup ⊢
      exact ih _ hdup
    | some m =>
      rw [labelsFrom_labelled a _ hb] at hdup ⊢
      obtain ⟨hm, hdup⟩ := firstDuplicate_cons_eq_none_iff.mp hdup
      have hn := ih _ hdup
      have hmn : m ≠ n := by
        rintro rfl
        rw [hn] at hm
        cases hm
      rw [lookupLabel, if_neg hmn, hn]

theorem resolve3_eq_ok {labels : List (String × Nat)} {a b c : AsmOperand} {make : Cell → Cell → Cell → List Cell} {cs : List Cell}
    (h : resolve3 labels a b c make = .ok cs) :
    ∃ x y z, resolve labels a = .ok x ∧ resolve labels b = .ok y ∧ resolve labels c = .ok z ∧ cs = make x y z := by
  unfold resolve3 at h
  cases ha : resolve labels a with
  | error e => rw [ha] at h; cases h
  | ok x =>
    cases hb : resolve labels b with
    | error e => rw [ha, hb] at h; cases h
    | ok y =>
      cases hc : resolve labels c with
      | error e => rw [ha, hb, hc] at h; cases h
      | ok z =>
        rw [ha, hb, hc] at h
        exact ⟨x, y, z, rfl, rfl, rfl, (Except.ok.inj h).symm⟩

theorem emit_length {labels : List (String × Nat)} {body : AsmBody} {cs : List Cell} (h : emit labels body = .ok cs) :
    cs.length = body.size := by
  cases body with
  | add a b c => obtain ⟨x, y, z, -, -, -, rfl⟩ := resolve3_eq_ok h; rfl
  | mul a b c => obtain ⟨x, y, z, -, -, -, rfl⟩ := resolve3_eq_ok h; rfl
  | halt => cases h; rfl
  | cell v => cases h; rfl

theorem emitAll_cons_eq_ok {labels : List (String × Nat)} {l : AsmLine} {ls : List AsmLine} {cs : List Cell}
    (h : emitAll labels (l :: ls) = .ok cs) :
    ∃ mine rest, emit labels l.body = .ok mine ∧ emitAll labels ls = .ok rest ∧ cs = mine ++ rest := by
  unfold emitAll at h
  cases hl : emit labels l.body with
  | error e => rw [hl] at h; cases h
  | ok mine =>
    cases hls : emitAll labels ls with
    | error e => rw [hl, hls] at h; cases h
    | ok rest =>
      rw [hl, hls] at h
      exact ⟨mine, rest, rfl, rfl, (Except.ok.inj h).symm⟩

/-- The cells of a line stand after those of the lines before it. -/
theorem emitAll_drop {labels : List (String × Nat)} {l : AsmLine} {after : List AsmLine} (before : List AsmLine) :
    ∀ {cs : List Cell}, emitAll labels (before ++ l :: after) = .ok cs →
      ∃ mine rest, emit labels l.body = .ok mine ∧ cs.drop (totalSize before) = mine ++ rest := by
  induction before with
  | nil =>
    intro cs h
    obtain ⟨mine, rest, hl, -, rfl⟩ := emitAll_cons_eq_ok h
    exact ⟨mine, rest, hl, rfl⟩
  | cons b bs ih =>
    intro cs h
    obtain ⟨cells, others, hb, hothers, rfl⟩ := emitAll_cons_eq_ok h
    obtain ⟨mine, rest, hl, hdrop⟩ := ih hothers
    refine ⟨mine, rest, hl, ?_⟩
    rw [totalSize_cons, ← List.drop_drop, List.drop_left' (emit_length hb), hdrop]

theorem assemble_eq_ok {ls : List AsmLine} {cs : List Cell} (h : assemble ls = .ok cs) :
    firstDuplicate (labelsFrom 0 ls) = none ∧ emitAll (labelsFrom 0 ls) ls = .ok cs := by
  unfold assemble at h
  cases hd : firstDuplicate (labelsFrom 0 ls) with
  | some n => rw [hd] at h; cases h
  | none => rw [hd] at h; exact ⟨rfl, h⟩

theorem resolve_label {labels : List (String × Nat)} {n : String} {a : Nat} (h : lookupLabel n labels = some a) :
    resolve labels (.label n) = .ok (a : Int) := by
  simp only [resolve, h]
  rfl

/-- Settles O51: the label's address by `lookupLabel_labelsFrom`, the place of the line's cells by `emitAll_drop`, and what they are by the
form of the line. -/
theorem assembledLinesStandAtTheirAddresses : Obligations.AssembledLinesStandAtTheirAddresses := by
  unfold Obligations.AssembledLinesStandAtTheirAddresses
  intro before after l cs h
  obtain ⟨hdup, hall⟩ := assemble_eq_ok h
  refine ⟨fun n hn => resolve_label ?_, ?_⟩
  · rw [lookupLabel_labelsFrom hn before 0 hdup, Nat.zero_add, totalSize]
  obtain ⟨mine, rest, hemit, hdrop⟩ := emitAll_drop before hall
  refine ⟨mine, rest, hemit, emit_length hemit, hdrop, ?_⟩
  cases hbody : l.body <;> rw [hbody] at hemit
  case add a b c => exact resolve3_eq_ok hemit
  case mul a b c => exact resolve3_eq_ok hemit
  case halt => exact (Except.ok.inj hemit).symm
  case cell v => exact (Except.ok.inj hemit).symm

end Sys2Proof.Machine
